-- ==== Sys2Proof/Word.lean ====
section
/-! DEFINITION. The widths of the RC4 Engine (rules R7, R8): a data byte, a register word, a port
offset, and a 256-entry store of bytes. Every value is unsigned (rule R10). -/

namespace Sys2Proof

/-- A data value of the core: "Every data value the core moves is a byte" (rule R7). -/
abbrev Byte := BitVec 8

/-- A register, and a command, of the host port: 32 bits (rules R8, R80). -/
abbrev Word := BitVec 32

/-- Bits [5:0] of an access's address: the byte offset into the 64-byte window (rule R51). -/
abbrev Offset := BitVec 6

/-- A store of 256 entries of 8 bits: the S-box (rule R21) and the key buffer (rule R22). -/
abbrev Buf := Vector Byte 256

/-- An 8-bit index is always in range for a 256-entry store (rule R50). -/
theorem Byte.toNat_lt (a : Byte) : a.toNat < 256 := a.isLt

end Sys2Proof
end

