-- ==== Sys2Proof/Syntax.lean ====
section
/-! DEFINITION. The commands: one constructor per row of the opcode table (rule R82). A word that
is none of them is Illegal (rule R86); it is no instruction and has no constructor, and the engine step
gives it the effect of rule R103. -/

namespace Sys2Proof

/-- A command of the engine. Its one operand form is an 8-bit unsigned DATA value (rule R83). -/
inductive Instr where
  /-- No operation (rule R110). -/
  | nop
  /-- Begin a new key (rule R120). -/
  | kclr
  /-- Append the key byte `d` (rule R122). -/
  | kload (d : Byte)
  /-- Run the KSA and set up the PRGA (rule R128). -/
  | sched
  /-- One PRGA step, XORed with the input byte `d` (rule R141). -/
  | proc (d : Byte)
  /-- Read S-box entry `d` into DOUT (rule R150). -/
  | peek (d : Byte)
  deriving DecidableEq, Repr

/-- The command's name, as the opcode table of rule R82 spells it. -/
def Instr.mnemonic : Instr → String
  | .nop => "NOP"
  | .kclr => "KCLR"
  | .kload _ => "KLOAD"
  | .sched => "SCHED"
  | .proc _ => "PROC"
  | .peek _ => "PEEK"

end Sys2Proof
end

