-- ==== Sys2Proof/WellFormed.lean ====
section
/-! DEFINITION. When the three fields of a command word (rule R80) are a command: the checks of rules
R81, R82 and R84, each under its own name. An `Instr` needs no check of its own: its operand has 8
bits and every 8-bit value is allowed (rules R83, R122, R150). -/

namespace Sys2Proof

/-- The one format of a command word: RSV [31:16], OPC [15:8], DATA [7:0] (rule R80). -/
structure CommandFields where
  rsv : BitVec 16
  opc : Byte
  data : Byte
  deriving DecidableEq, Repr

namespace CommandFields

/-- "A command word with any bit of [31:16] set is illegal, whatever its OPC" (rule R81). -/
def rsvOk (f : CommandFields) : Bool := f.rsv == 0#16

/-- OPC 0x06..0xFF is reserved (rules R82, R85). -/
def opcOk (f : CommandFields) : Bool := f.opc.toNat ≤ 5

/-- "For NOP, KCLR and SCHED the DATA field must be 0x00" (rule R84). -/
def dataOk (f : CommandFields) : Bool :=
  if f.opc = 0x00#8 ∨ f.opc = 0x01#8 ∨ f.opc = 0x03#8 then f.data == 0#8 else true

/-- The fields of a command; every other word is Illegal (rule R85). -/
def wf (f : CommandFields) : Bool := f.rsvOk && f.opcOk && f.dataOk

end CommandFields

end Sys2Proof
end

