-- ==== Sys2Proof/Decode.lean ====
section
/-! DEFINITION. Decoding a command word, total on every 32-bit word (rule R86), and the encoder
beside it, both from the table of rule R82. -/

namespace Sys2Proof

/-- Why a word is Illegal (rule R85). "All illegal words behave alike", so the machine never looks at
which of these it was. -/
inductive Illegal where
  /-- RSV is not 0 (rule R81). -/
  | reservedBits
  /-- OPC is 0x06..0xFF (rule R85). -/
  | reservedOpcode
  /-- DATA is not 0 on NOP, KCLR or SCHED (rule R84). -/
  | strayData
  deriving DecidableEq, Repr

/-- The fields of a word (rule R80). -/
def fieldsOf (w : Word) : CommandFields :=
  { rsv := w.extractLsb' 16 16, opc := w.extractLsb' 8 8, data := w.extractLsb' 0 8 }

/-- The word with these fields: `{rsv, opc, data}` (rules R10, R80). -/
def CommandFields.word (f : CommandFields) : Word := f.rsv ++ (f.opc ++ f.data)

/-- A command that takes no operand: Illegal unless DATA is 0 (rule R84). -/
def noOperand (d : Byte) (i : Instr) : Except Illegal Instr :=
  if d = 0#8 then .ok i else .error .strayData

/-- The decoder of rule R86. -/
def decodeFields (f : CommandFields) : Except Illegal Instr :=
  if f.rsv ≠ 0#16 then .error .reservedBits
  else match f.opc.toNat with
    | 0x00 => noOperand f.data .nop
    | 0x01 => noOperand f.data .kclr
    | 0x02 => .ok (.kload f.data)
    | 0x03 => noOperand f.data .sched
    | 0x04 => .ok (.proc f.data)
    | 0x05 => .ok (.peek f.data)
    | _ => .error .reservedOpcode

/-- Decodes a command word (rule R86). -/
def decode (w : Word) : Except Illegal Instr := decodeFields (fieldsOf w)

/-- The fields of a command, from the table of rule R82. -/
def Instr.fields : Instr → CommandFields
  | .nop => { rsv := 0#16, opc := 0x00#8, data := 0#8 }
  | .kclr => { rsv := 0#16, opc := 0x01#8, data := 0#8 }
  | .kload d => { rsv := 0#16, opc := 0x02#8, data := d }
  | .sched => { rsv := 0#16, opc := 0x03#8, data := 0#8 }
  | .proc d => { rsv := 0#16, opc := 0x04#8, data := d }
  | .peek d => { rsv := 0#16, opc := 0x05#8, data := d }

/-- The command's word: `(OPC << 8) | byte` (rules R82, R87). -/
def encode (i : Instr) : Word := i.fields.word

/-- A row of the word-pattern table of rule R82. -/
structure OpRow where
  mnemonic : String
  pattern : Word
  mask : Word
  deriving DecidableEq, Repr

/-- The match and mask columns of rule R82. -/
def opTable : List OpRow :=
  [ { mnemonic := "NOP", pattern := 0x00000000#32, mask := 0xFFFFFFFF#32 },
    { mnemonic := "KCLR", pattern := 0x00000100#32, mask := 0xFFFFFFFF#32 },
    { mnemonic := "KLOAD", pattern := 0x00000200#32, mask := 0xFFFFFF00#32 },
    { mnemonic := "SCHED", pattern := 0x00000300#32, mask := 0xFFFFFFFF#32 },
    { mnemonic := "PROC", pattern := 0x00000400#32, mask := 0xFFFFFF00#32 },
    { mnemonic := "PEEK", pattern := 0x00000500#32, mask := 0xFFFFFF00#32 } ]

/-- The row's words: `w AND mask = match` (rule R82). -/
def OpRow.admits (r : OpRow) (w : Word) : Bool := w &&& r.mask == r.pattern

/-- Byte lane `n` of a register word, bits [8n+7:8n]: the byte at `RC4_BASE + off + n` (rule R55). -/
def laneByte (w : Word) (n : Fin 4) : Byte := w.extractLsb' (8 * n.val) 8

/-- The word whose four lanes, lowest address first, are these bytes (rule R55). -/
def wordOfLanes (b0 b1 b2 b3 : Byte) : Word := b3 ++ (b2 ++ (b1 ++ b0))

/-- The command that `nbits` bits of value `w`, numbered as the opcode table numbers them, stand for.
Every command is one 32-bit word (rule R80); bits above `nbits` are 0. -/
def decodeTableWord (nbits w : Nat) : Option Instr :=
  if nbits ≤ 32 then (decode (BitVec.ofNat 32 (w % 2 ^ nbits))).toOption else none

end Sys2Proof
end

