-- ==== Sys2Proof/Machine/State.lean ====
section
/-! DEFINITION. The state: the record of rule R20, and beside it the environment as plain data (the
rest of the script of host accesses, engine turns and resets, and the replies the host has had). -/

namespace Sys2Proof.Machine

/-- "The complete state of one RC4 Engine instance is the following record. A model's state type has
exactly these fields" (rule R20). -/
structure Rc4Eng where
  /-- The S-box (rule R21). -/
  S : Buf
  /-- The key buffer (rule R22). -/
  K : Buf
  /-- The number of key bytes loaded, 0..256 (rule R23); the bound is an invariant, not built in (R34). -/
  KEYLEN : BitVec 9
  /-- The PRGA index (rule R24). -/
  i : Byte
  /-- The KSA accumulator and PRGA index (rule R25). -/
  j : Byte
  /-- The result byte (rule R26). -/
  DOUT : Byte
  /-- The S-box is valid for the loaded key (rule R27). -/
  KEYED : Bool
  /-- A command is latched and not yet executed (rule R28). -/
  BUSY : Bool
  /-- The latched command word (rule R28). -/
  PEND : Word
  /-- The sticky error flags, bit `n` for code `n` (rules R29, R38). -/
  ERR : BitVec 5
  deriving DecidableEq, Repr

/-- The width of a host access (rule R53): only 32 bits is carried by the port. -/
inductive AccessWidth where
  | bits8
  | bits16
  | bits32
  | bits64
  deriving DecidableEq, Repr

/-- What a host access does: RegRead, or RegWrite of a word (rule R52). -/
inductive AccessKind where
  | read
  | write (v : Word)
  deriving DecidableEq, Repr

/-- One host access as it reaches the core's port: the offset bits of its address (rule R51), its
width and byte enables (rule R53), and what it does. -/
structure Access where
  off : Offset
  width : AccessWidth
  enables : BitVec 4
  kind : AccessKind
  deriving DecidableEq, Repr

/-- One thing that happens to the core: "Every step of the system is one of three kinds: a host
RegRead, a host RegWrite, or an engine step" (rule R61), and "a model may apply reset between any two
steps" (rule R200). -/
inductive Event where
  /-- The host makes an access (rule R52). -/
  | host (a : Access)
  /-- The engine's turn: it steps if BUSY = 1 and has no step otherwise (rule R102). -/
  | engine
  /-- A reset, with the draw of the contents it leaves unspecified (rules R9 (b), R200). -/
  | reset (S K : Buf) (PEND : Word)
  deriving DecidableEq, Repr

/-- What a RegRead returned to the host. -/
structure Reply where
  off : Offset
  data : Word
  deriving DecidableEq, Repr

/-- Why the machine stops. -/
inductive Fault where
  /-- The host made a sub-word, wide, partially enabled or misaligned access: "A model does not perform
  such an access: it records a host fault naming the access" (rules R53, R54; D32). Raised by the
  register port, never by a command. Safe: the core goes on with nothing changed. -/
  | badAccess (a : Access)
  deriving DecidableEq, Repr

/-- Why an instruction has no meaning. -/
inductive Refusal where
  /-- An instruction the model has not reached, by its mnemonic. No arm of `exec` answers it: every
  instruction has its meaning. Safe. -/
  | notModelled (mnemonic : String)
  deriving DecidableEq, Repr

structure State where
  /-- The RC4 Engine instance (rule R20). -/
  eng : Rc4Eng
  /-- The model's own (assumption 1): what the environment does next, first event first. Its order is
  the free interleaving of rules R61 and R102. -/
  script : List Event
  /-- The model's own (assumption 10): what the host's reads have returned, oldest first. -/
  replies : List Reply
  deriving DecidableEq, Repr

/-- The state after a reset, for a draw of the contents that reset leaves unspecified (rule R33). -/
def Rc4Eng.reset (S K : Buf) (PEND : Word) : Rc4Eng :=
  { S := S, K := K, KEYLEN := 0#9, i := 0x00#8, j := 0x00#8, DOUT := 0x00#8,
    KEYED := false, BUSY := false, PEND := PEND, ERR := 0b00000#5 }

/-- The machine right after reset, with nothing scripted. The spec leaves `S`, `K` and `PEND` a draw:
zero is the model's value for them here (assumption 3, DESIGN CHOICE, unsafe), and statements are made
over `Rc4Eng.reset` for every draw instead. -/
def State.reset : State :=
  { eng := Rc4Eng.reset (Vector.replicate 256 0#8) (Vector.replicate 256 0#8) 0#32,
    script := [], replies := [] }

end Sys2Proof.Machine
end

