-- ==== Sys2Proof/Machine/Flags.lean ====
section
/-! DEFINITION. The flags (rule R32): the five sticky error flags and how they are set and cleared, and
the STATUS view. The core has no arithmetic flags. -/

namespace Sys2Proof.Machine

/-- The error flags of rule R38, by name. -/
inductive ErrFlag where
  /-- SCHED with KEYLEN = 0: the source's `InvalidKey` (rule R172). -/
  | key
  /-- KLOAD with KEYLEN = 256 (rule R173). -/
  | klen
  /-- PROC or PEEK with KEYED = 0 (rule R174). -/
  | seq
  /-- An illegal command word (rule R175). -/
  | ill
  /-- A CMD write while BUSY = 1 (rule R176). -/
  | ovr
  deriving DecidableEq, Repr

/-- A flag's bit of ERR, "which is also its error code" (rules R38, R170). -/
def ErrFlag.code : ErrFlag → Fin 5
  | .key => 0
  | .klen => 1
  | .seq => 2
  | .ill => 3
  | .ovr => 4

/-- The flag's bit alone. -/
def ErrFlag.bit (f : ErrFlag) : BitVec 5 := 1#5 <<< f.code.val

/-- Whether flag `f` is set. -/
def Rc4Eng.errSet (e : Rc4Eng) (f : ErrFlag) : Bool := e.ERR.getLsbD f.code.val

/-- `set ERR.X`: writes 1 to flag X and leaves the other flags unchanged (rule R171). -/
def Rc4Eng.setErr (e : Rc4Eng) (f : ErrFlag) : Rc4Eng := { e with ERR := e.ERR ||| f.bit }

/-- The write-1-to-clear action of ERR: `ERR <- ERR AND NOT v[4:0]` (rule R177). -/
def Rc4Eng.clearErr (e : Rc4Eng) (v : Word) : Rc4Eng :=
  { e with ERR := e.ERR &&& ~~~(v.extractLsb' 0 5) }

/-- STATUS.ERRANY, the OR of the five flags: "a view of ERR and not separate state" (rule R178). -/
def Rc4Eng.errAny (e : Rc4Eng) : Bool :=
  e.ERR.getLsbD 0 || e.ERR.getLsbD 1 || e.ERR.getLsbD 2 || e.ERR.getLsbD 3 || e.ERR.getLsbD 4

/-- The STATUS word: BUSY in bit 0, KEYED in bit 1, ERRANY in bit 2 (rule R37). -/
def Rc4Eng.status (e : Rc4Eng) : Word :=
  0#29 ++ (BitVec.ofBool e.errAny ++ (BitVec.ofBool e.KEYED ++ BitVec.ofBool e.BUSY))

end Sys2Proof.Machine
end

