-- ==== Sys2Proof/Machine/Ops.lean ====
section
/-! DEFINITION. The shared operations: reading, writing and swapping entries of the two byte stores,
one PRGA advance, how a command completes and how it fails. The core takes no trap (rule R180);
failing, which sets one sticky flag, stands where another machine takes an exception. -/

namespace Sys2Proof.Machine

/-- `S[a]` and `K[a]` as values (rule R12). -/
def readEntry (B : Buf) (a : Byte) : Byte := B[a.toNat]'a.toNat_lt

/-- `S[a] <- v` and `K[a] <- v` (rule R12). -/
def writeEntry (B : Buf) (a v : Byte) : Buf := B.set a.toNat v a.toNat_lt

/-- `swap(S[a], S[b])`: it reads both entries before it writes either (rules R12, R130). -/
def swapEntries (B : Buf) (a b : Byte) : Buf :=
  writeEntry (writeEntry B a (readEntry B b)) b (readEntry B a)

/-- The identity permutation, KSA step 1: `S[a] <- a` for every `a` (rules R125, R128). -/
def identityBuf : Buf := Vector.ofFn fun a => BitVec.ofNat 8 a.val

/-- The bytes that one PRGA step reads and writes: the S-box and the indices `i`, `j` (rule R141). -/
structure Prga where
  S : Buf
  i : Byte
  j : Byte
  deriving DecidableEq, Repr

/-- The PRGA's part of the state. -/
def Rc4Eng.prga (e : Rc4Eng) : Prga := { S := e.S, i := e.i, j := e.j }

/-- One PRGA step up to its swap: advance `i`, add `S[i]` into `j`, swap (rule R141; `+8` wraps, R142). -/
def Prga.next (p : Prga) : Prga :=
  let i := p.i + 1#8
  let j := p.j + readEntry p.S i
  { S := swapEntries p.S i j, i := i, j := j }

/-- The keystream byte `t = S[(S[i] + S[j]) mod 256]`, looked up after the swap (rules R67, R141). -/
def Prga.keystream (p : Prga) : Byte :=
  readEntry p.S (readEntry p.S p.i + readEntry p.S p.j)

/-- The outcome type of this machine's steps. -/
abbrev Result := Host.Outcome State Fault Refusal

/-- A command's results, written to the engine; the environment is not the command's to change. -/
def State.withEng (s : State) (e : Rc4Eng) : State := { s with eng := e }

/-- A command that succeeds leaves the engine as `e`. -/
def complete (e : Rc4Eng) (s : State) : Result := .next (s.withEng e)

/-- A command that fails "sets exactly one ERR flag and changes no other state" (rule R106). -/
def failWith (f : ErrFlag) (s : State) : Result := .next (s.withEng (s.eng.setErr f))

/-- `BUSY <- 0`, the end of an engine step: every result of the command commits with it (rules R104,
R105). -/
def commit : Result → Result
  | .next s => .next (s.withEng { s.eng with BUSY := false })
  | .fault r => .fault r
  | .refused r => .refused r

/-- Goes on with `f` from the next state, and stops where `r` stopped. -/
def andThen (r : Result) (f : State → Result) : Result :=
  match r with
  | .next s => f s
  | .fault r => .fault r
  | .refused r => .refused r

end Sys2Proof.Machine
end

