-- ==== Sys2Proof/Machine/Operands.lean ====
section
/-! DEFINITION. The operand forms. A command's one operand is its DATA byte (rule R83), which `decode`
extracts; the host's operand is a register of the window, by its offset (rules R35 to R42). -/

namespace Sys2Proof.Machine

/-- What stands in a word slot of the register window (rule R35). -/
inductive Reg where
  | cmd
  | status
  | err
  | keylen
  | dout
  | idx
  /-- Offsets 0x18 to 0x3C (rule R42). -/
  | reserved
  deriving DecidableEq, Repr

/-- The register at a byte offset, by its word slot (rule R35). -/
def regAt (off : Offset) : Reg :=
  match off.toNat / 4 with
  | 0 => .cmd
  | 1 => .status
  | 2 => .err
  | 3 => .keylen
  | 4 => .dout
  | 5 => .idx
  | _ => .reserved

/-- The offsets of the six registers (rule R35). -/
def offCmd : Offset := 0x00#6
def offStatus : Offset := 0x04#6
def offErr : Offset := 0x08#6
def offKeylen : Offset := 0x0C#6
def offDout : Offset := 0x10#6
def offIdx : Offset := 0x14#6

/-- The 32-bit content a RegRead of the register returns (rules R36 to R42). -/
def Rc4Eng.regContent (e : Rc4Eng) : Reg → Word
  | .cmd => 0#32
  | .status => e.status
  | .err => e.ERR.setWidth 32
  | .keylen => e.KEYLEN.setWidth 32
  | .dout => e.DOUT.setWidth 32
  | .idx => 0#16 ++ (e.j ++ e.i)
  | .reserved => 0#32

/-- `RegRead(off)` (rule R52). It reads the state and changes nothing (rule R58). -/
def Rc4Eng.regRead (e : Rc4Eng) (off : Offset) : Word := e.regContent (regAt off)

/-- The port carries an access only if it is a whole 32-bit word at a multiple of 4 (rules R53, R54). -/
def Access.ok (a : Access) : Bool :=
  a.width == .bits32 && a.enables == 0xF#4 && a.off.toNat % 4 == 0

/-- A whole-word RegRead of the register at `off`. -/
def Access.readAt (off : Offset) : Access :=
  { off := off, width := .bits32, enables := 0xF#4, kind := .read }

/-- A whole-word RegWrite of `v` to the register at `off`. -/
def Access.writeAt (off : Offset) (v : Word) : Access :=
  { off := off, width := .bits32, enables := 0xF#4, kind := .write v }

/-- The key index of KSA iteration `n`: `n mod KEYLEN` (rules R127, R128). SCHED never asks for it with
KEYLEN = 0 (rule R126). -/
def keyIndex (KEYLEN : BitVec 9) (n : Nat) : Byte := BitVec.ofNat 8 (n % KEYLEN.toNat)

/-- The entry of K that the next key byte goes to, `K[KEYLEN]` (rule R122). KEYLEN is in 0..255 there
in every reachable state; past 256 the low 8 bits are taken (assumption 7). -/
def keyWriteIndex (KEYLEN : BitVec 9) : Byte := KEYLEN.setWidth 8

end Sys2Proof.Machine
end

