-- ==== Sys2Proof/Machine/Control.lean ====
section
/-! DEFINITION. The command of 40_command_cycle.md that is in neither family: NOP. -/

namespace Sys2Proof.Machine

/-- `exec_NOP: (nothing)` (rule R110). -/
def execNop (s : State) : Result := complete s.eng s

end Sys2Proof.Machine
end

