-- ==== Sys2Proof/Machine/Ksa.lean ====
section
/-! DEFINITION. Key loading and key scheduling: KCLR, KLOAD, SCHED (41_ksa.md). -/

namespace Sys2Proof.Machine

/-- `exec_KCLR` (rule R120). The bytes of K stay. -/
def execKclr (s : State) : Result :=
  complete { s.eng with KEYLEN := 0#9, KEYED := false } s

/-- `exec_KLOAD(d)` (rule R122). -/
def execKload (d : Byte) (s : State) : Result :=
  let e := s.eng
  if e.KEYLEN = 256#9 then failWith .klen s
  else complete { e with
    K := writeEntry e.K (keyWriteIndex e.KEYLEN) d
    KEYLEN := e.KEYLEN + 1#9
    KEYED := false } s

/-- The working values of one SCHED: the S-box being built and the accumulator (rules R43, R125). -/
structure Ksa where
  S : Buf
  j : Byte
  deriving DecidableEq, Repr

/-- One swap iteration: `j <- (j + S[n] + k) mod 256; swap(S[n], S[j])` for the key byte `k` (rule
R128 step 3). -/
def Ksa.mix (p : Ksa) (n k : Byte) : Ksa :=
  let j := p.j + readEntry p.S n + k
  { S := swapEntries p.S n j, j := j }

/-- Iteration `n` reads the key byte `K[n mod KEYLEN]` (rule R128 step 3). -/
def Ksa.round (K : Buf) (KEYLEN : BitVec 9) (p : Ksa) (n : Nat) : Ksa :=
  p.mix (BitVec.ofNat 8 n) (readEntry K (keyIndex KEYLEN n))

/-- KSA steps 1 and 2: the identity permutation and `j = 0` (rule R128). -/
def Ksa.start : Ksa := { S := identityBuf, j := 0#8 }

/-- The KSA: 256 iterations "in order" (rules R13, R128). -/
def ksa (K : Buf) (KEYLEN : BitVec 9) : Ksa :=
  (List.range 256).foldl (Ksa.round K KEYLEN) Ksa.start

/-- `exec_SCHED` (rule R128). The final accumulator is discarded: `j` is left at 0 (rule R25). -/
def execSched (s : State) : Result :=
  let e := s.eng
  if e.KEYLEN = 0#9 then failWith .key s
  else complete { e with
    S := (ksa e.K e.KEYLEN).S
    i := 0#8
    j := 0#8
    KEYED := true } s

/-- The hardware's form of the loop, with a wrapping key counter `kp` instead of a remainder (rules
R43, R129). `execSched` uses rule R128's form; that the two agree is a statement. -/
structure KsaCounter where
  ksa : Ksa
  kp : BitVec 9
  deriving DecidableEq, Repr

/-- One iteration: it uses `K[kp]`, and then `kp <- (kp + 1 == KEYLEN) ? 0 : kp + 1` (rule R129). -/
def KsaCounter.round (K : Buf) (KEYLEN : BitVec 9) (p : KsaCounter) (n : Nat) : KsaCounter :=
  { ksa := p.ksa.mix (BitVec.ofNat 8 n) (readEntry K (keyWriteIndex p.kp))
    kp := if p.kp + 1#9 = KEYLEN then 0#9 else p.kp + 1#9 }

/-- The first `n` iterations with the counter, which "starts at 0 with step 3" (rule R129). -/
def ksaByCounter (K : Buf) (KEYLEN : BitVec 9) (n : Nat) : KsaCounter :=
  (List.range n).foldl (KsaCounter.round K KEYLEN) { ksa := Ksa.start, kp := 0#9 }

end Sys2Proof.Machine
end

