-- ==== Sys2Proof/Machine/Prga.lean ====
section
/-! DEFINITION. Keystream generation and the S-box lookup: PROC, PEEK (42_prga.md). -/

namespace Sys2Proof.Machine

/-- `exec_PROC(d)` (rule R141). -/
def execProc (d : Byte) (s : State) : Result :=
  let e := s.eng
  if e.KEYED = false then failWith .seq s
  else
    let p := e.prga.next
    complete { e with
      S := p.S
      i := p.i
      j := p.j
      DOUT := d ^^^ p.keystream } s

/-- `exec_PEEK(d)` (rule R150). -/
def execPeek (d : Byte) (s : State) : Result :=
  let e := s.eng
  if e.KEYED = false then failWith .seq s
  else complete { e with DOUT := readEntry e.S d } s

end Sys2Proof.Machine
end

