-- ==== Sys2Proof/Machine/Dispatch.lean ====
section
/-! DEFINITION. The case analysis of the engine step (rule R104): one arm per command. -/

namespace Sys2Proof.Machine

def exec (i : Instr) (s : State) : Host.Outcome State Fault Refusal :=
  match i with
  | .nop => Sys2Proof.Machine.execNop s
  | .kclr => Sys2Proof.Machine.execKclr s
  | .kload d => Sys2Proof.Machine.execKload d s
  | .sched => Sys2Proof.Machine.execSched s
  | .proc d => Sys2Proof.Machine.execProc d s
  | .peek d => Sys2Proof.Machine.execPeek d s

end Sys2Proof.Machine
end

