-- ==== Sys2Proof/Config.lean ====
section
/-! DEFINITION. What a platform fixes and the spec leaves open (rule R9). The reset draws are arguments
of `Rc4Eng.reset` and of the reset event, and the engine's scheduling is the order of `State.script`;
only the window's base is a constant here. -/

namespace Sys2Proof.Config

/-- `RC4_BASE / 64`: rule R9 (a) leaves the base OPEN but for being "a multiple of 64". It has no body,
so no proof can see where the window lies (assumption 6). -/
opaque rc4BaseBlock : Nat

/-- `RC4_BASE`, the base address of the register window in the host's address space (rules R9, R51). -/
def rc4Base : Nat := 64 * rc4BaseBlock

end Sys2Proof.Config
end

