-- ==== Sys2Proof/Machine/Port.lean ====
section
/-! DEFINITION. The register port: RegRead, RegWrite, the command latch, and the address decode of the
window (rules R50 to R58, R101, R177). -/

namespace Sys2Proof.Machine

/-- `RegWrite(CMD, v)`: latch the word, or drop it and flag the overrun (rule R101). -/
def Rc4Eng.writeCmd (e : Rc4Eng) (v : Word) : Rc4Eng :=
  if e.BUSY = false then { e with PEND := v, BUSY := true } else e.setErr .ovr

/-- `RegWrite(off, v)`: CMD latches, ERR clears, and every other offset ignores it (rule R52). -/
def Rc4Eng.regWrite (e : Rc4Eng) (off : Offset) (v : Word) : Rc4Eng :=
  match regAt off with
  | .cmd => e.writeCmd v
  | .err => e.clearErr v
  | .status => e
  | .keylen => e
  | .dout => e
  | .idx => e
  | .reserved => e

/-- What the bus answers to an access: an error bit, and the data of a read. -/
structure BusReply where
  error : Bool
  data : Word
  deriving DecidableEq, Repr

/-- The hardware's bus response: a bad access "gets a bus error response", and "a read returns
0x00000000 as its data" (rule R53). -/
def Rc4Eng.busReply (e : Rc4Eng) (a : Access) : BusReply :=
  if a.ok = true then
    { error := false, data := match a.kind with
        | .read => e.regRead a.off
        | .write _ => 0#32 }
  else { error := true, data := 0#32 }

/-- One host access, atomic over its 32 bits (rules R52, R58). A bad access is not performed: it is a
host fault that names it (rules R53, R54). -/
def hostAccess (a : Access) (s : State) : Result :=
  if a.ok = true then
    match a.kind with
    | .read =>
      .next { s with replies := s.replies ++ [{ off := a.off, data := s.eng.regRead a.off }] }
    | .write v => .next (s.withEng (s.eng.regWrite a.off v))
  else .fault (.badAccess a)

/-- The offset an access at host address `addr` reaches this core at, if the address lies in the
64-byte window of the core at `64 * block` (rule R51): "The core decodes bits [5:0] of an access's
address as the offset". -/
def windowOffset (block addr : Nat) : Option Offset :=
  if addr / 64 = block then some (BitVec.ofNat 6 addr) else none

/-- The event an access at a host address is for the core at `RC4_BASE`: none outside the window,
where "the platform decides … what lies elsewhere" (rule R51). -/
def routeAccess (addr : Nat) (width : AccessWidth) (enables : BitVec 4) (kind : AccessKind) :
    Option Event :=
  (windowOffset Config.rc4BaseBlock addr).map fun off =>
    .host { off := off, width := width, enables := enables, kind := kind }

/-- A reset, with the draw of what it leaves unspecified: a latched command is discarded (rule R200). -/
def applyReset (S K : Buf) (PEND : Word) (s : State) : Result :=
  .next (s.withEng (Rc4Eng.reset S K PEND))

end Sys2Proof.Machine
end

