-- ==== Sys2Proof/Machine/Cycle.lean ====
section
/-! DEFINITION. The command cycle: the engine step, its turn, and one event (rules R61, R100 to R105). -/

namespace Sys2Proof.Machine

/-- The engine step, one atomic transition (rule R104). An illegal word sets ERR.ILL and nothing else
(rule R103). -/
def engineStep (s : State) : Result :=
  commit (match decode s.eng.PEND with
    | .ok i => exec i s
    | .error _ => failWith .ill s)

/-- The engine's turn: "The engine step is enabled exactly when BUSY = 1" (rule R102). An idle engine
has no step, and the turn passes with nothing changed (assumption 8). -/
def engineTurn (s : State) : Result :=
  if s.eng.BUSY = true then engineStep s else .next s

/-- What an event does to the machine (rules R61, R200). -/
def performEvent (ev : Event) (s : State) : Result :=
  match ev with
  | .host a => hostAccess a s
  | .engine => engineTurn s
  | .reset S K PEND => applyReset S K PEND s

/-- The machine's step: the next event of the script, and the engine's turn once the script has run
out (rules R61, R102; assumption 4). -/
def stepScript (s : State) : Result :=
  match s.script with
  | [] => engineTurn s
  | ev :: rest => performEvent ev { s with script := rest }

/-- The machine with command word `w` latched and the engine's turn next (assumption 2). -/
def latchNext (s : State) (w : Word) : State :=
  { s with eng := { s.eng with PEND := w, BUSY := true }, script := .engine :: s.script }

end Sys2Proof.Machine
end

