-- ==== Sys2Proof/Machine/Step.lean ====
section
/-! DEFINITION. One step of the machine, and the placing of a command where the next step executes it. -/

namespace Sys2Proof.Machine

/-- One step: one event of the total order of rule R61. -/
def step (s : State) : Host.Outcome State Fault Refusal := stepScript s

/-- The machine with the command that `nbits` bits of value `w` stand for latched, and the engine's
turn next: this core has no program counter and fetches nothing (rule R31); the word its next engine
step executes is `PEND` with BUSY = 1 (rule R104), which an accepted RegWrite to CMD sets (rule R101;
assumption 2). -/
def State.withFetchWord (s : State) (nbits w : Nat) : State :=
  latchNext s (BitVec.ofNat 32 (w % 2 ^ nbits))

end Sys2Proof.Machine
end

