-- ==== Sys2Proof/Machine/Session.lean ====
section
/-! DEFINITION. The host's side: the sequential driver and the session (rules R205, R212 to R214), as
scripts of events, and commands run one after another. -/

namespace Sys2Proof.Machine

/-- A whole-word RegRead by the host. -/
def readEvent (off : Offset) : Event := .host (.readAt off)

/-- A whole-word RegWrite by the host. -/
def writeEvent (off : Offset) (v : Word) : Event := .host (.writeAt off v)

/-- The host writes a command and polls STATUS until BUSY = 0 (rule R214): `polls` reads find the engine
busy, then the engine steps, and one more read finds it idle. -/
def commandEvents (w : Word) (polls : Nat) : List Event :=
  writeEvent offCmd w :: (List.replicate polls (readEvent offStatus) ++ [.engine, readEvent offStatus])

/-- What the driver reads after a command: DOUT "after PROC or PEEK" (rule R214). -/
def resultEvents : Instr → List Event
  | .nop => []
  | .kclr => []
  | .kload _ => []
  | .sched => []
  | .proc _ => [readEvent offDout]
  | .peek _ => [readEvent offDout]

/-- The sequential host driver (rule R214), for any number of polls before each engine step. -/
def driverScript : List Instr → List Nat → List Event
  | [], _ => []
  | c :: cs, polls =>
    commandEvents (encode c) (polls.headD 0) ++ (resultEvents c ++ driverScript cs polls.tail)

/-- The commands of a session (rule R212). -/
def sessionCommands (key msg : List Byte) : List Instr :=
  .kclr :: (key.map .kload ++ (.sched :: msg.map .proc))

/-- `session(key, msg)` up to the read of ERR that ends it (rules R212, R213). -/
def sessionScript (key msg : List Byte) (polls : List Nat) : List Event :=
  driverScript (sessionCommands key msg) polls ++ [readEvent offErr]

/-- `out[]`: the bytes the host's DOUT reads returned (rule R212). -/
def outputOf (rs : List Reply) : List Byte :=
  (rs.filter fun r => r.off == offDout).map fun r => r.data.setWidth 8

/-- `e`: what the last read of ERR returned (rule R212). -/
def errorOf (rs : List Reply) : Word :=
  ((rs.filter fun r => r.off == offErr).getLast?.map Reply.data).getD 0#32

/-- The session's report: "if e != 0: the call failed: discard out[] …; else: return out" (rule R212). -/
def sessionReport (rs : List Reply) : Except Word (List Byte) :=
  if errorOf rs = 0#32 then .ok (outputOf rs) else .error (errorOf rs)

/-- "clear ERR", the end of a session that failed (rules R183, R212). -/
def recoveryEvents (e : Word) : List Event := if e = 0#32 then [] else [writeEvent offErr e]

/-- The commands' own effects one after another, without the latch between them. -/
def runCommands : List Instr → State → Result
  | [], s => .next s
  | i :: is, s => andThen (exec i s) (runCommands is)

/-- PROC of each byte in turn: the DOUT values, and the state left (rules R145, R146). None if one of
them stops. -/
def procAll : List Byte → State → Option (List Byte × State)
  | [], s => some ([], s)
  | b :: bs, s =>
    match exec (.proc b) s with
    | .next t => (procAll bs t).map fun r => (t.eng.DOUT :: r.1, r.2)
    | .fault _ => none
    | .refused _ => none

/-- The machine's steps one after another, as `Host.Core.run` takes them. -/
def runSteps : Nat → State → Result
  | 0, s => .next s
  | k + 1, s => andThen (step s) (runSteps k)

end Sys2Proof.Machine
end

