-- ==== Sys2Proof/Machine/Assembler.lean ====
section
/-! DEFINITION. The assembler of rules R87 and R88: the text of a line, its check, and the host's actions
it stands for. It is a spelling of host programs (D27); the machine does not use it. -/

namespace Sys2Proof.Machine

/-- A line of a program: the commands, the two host actions, and the pseudo-instructions. Operands are
the numbers as written; that they fit is `AsmLine.wf`. -/
inductive AsmLine where
  | blank
  | nop
  | kclr
  | kload (b : Nat)
  | sched
  | proc (b : Nat)
  | peek (b : Nat)
  | rd (r : Reg)
  | clrerr (mask : Nat)
  | setkey (bs : List Nat)
  | ksbyte
  | rekey
  | crypt (bs : List Nat)
  | clrall
  deriving DecidableEq, Repr

/-- What the host does: a command written to CMD, a RegRead, or a W1C write of ERR (rule R87). -/
inductive HostAction where
  | command (i : Instr)
  | read (r : Reg)
  | clearErr (mask : Word)
  deriving DecidableEq, Repr

/-- "A line whose byte does not fit in 8 bits is rejected by the assembler" (rule R87). -/
def fitsByte (b : Nat) : Bool := b < 256

/-- A line the assembler accepts (rules R87, R88: a key has 1 to 256 bytes). -/
def AsmLine.wf : AsmLine → Bool
  | .blank => true
  | .nop => true
  | .kclr => true
  | .kload b => fitsByte b
  | .sched => true
  | .proc b => fitsByte b
  | .peek b => fitsByte b
  | .rd r => r != .reserved
  | .clrerr mask => mask < 2 ^ 32
  | .setkey bs => bs.all fitsByte && 1 ≤ bs.length && bs.length ≤ 256
  | .ksbyte => true
  | .rekey => true
  | .crypt bs => bs.all fitsByte
  | .clrall => true

/-- The actions of a line, pseudo-instructions expanded (rule R88). -/
def AsmLine.actions : AsmLine → List HostAction
  | .blank => []
  | .nop => [.command .nop]
  | .kclr => [.command .kclr]
  | .kload b => [.command (.kload (BitVec.ofNat 8 b))]
  | .sched => [.command .sched]
  | .proc b => [.command (.proc (BitVec.ofNat 8 b))]
  | .peek b => [.command (.peek (BitVec.ofNat 8 b))]
  | .rd r => [.read r]
  | .clrerr mask => [.clearErr (BitVec.ofNat 32 mask)]
  | .setkey bs => .command .kclr :: bs.map fun b => .command (.kload (BitVec.ofNat 8 b))
  | .ksbyte => [.command (.proc 0x00#8)]
  | .rekey => [.command .sched]
  | .crypt bs => bs.flatMap fun b => [.command (.proc (BitVec.ofNat 8 b)), .read .dout]
  | .clrall => [.clearErr 0x1F#32]

/-- Assembles a line, or rejects it (rule R87). -/
def assemble (l : AsmLine) : Option (List HostAction) := if l.wf = true then some l.actions else none

/-- The word an action writes to CMD, if it is a command (rule R87). -/
def HostAction.word : HostAction → Option Word
  | .command i => some (encode i)
  | .read _ => none
  | .clearErr _ => none

/-- The offset of a named register (rule R35). -/
def Reg.offset : Reg → Offset
  | .cmd => offCmd
  | .status => offStatus
  | .err => offErr
  | .keylen => offKeylen
  | .dout => offDout
  | .idx => offIdx
  | .reserved => 0x18#6

/-- The events of an action: a command is driven until BUSY = 0 (rule R214). -/
def HostAction.events (polls : Nat) : HostAction → List Event
  | .command i => commandEvents (encode i) polls
  | .read r => [readEvent r.offset]
  | .clearErr mask => [writeEvent offErr mask]

/-- The pieces of a line's text. -/
inductive Token where
  | word (cs : List Char)
  | chr (c : Char)
  | str (cs : List Char)
  | comma
  deriving DecidableEq, Repr

/-- Ends the word being read, whose characters are in reverse. -/
def endWord (cur : List Char) (ts : List Token) : List Token :=
  if cur.isEmpty then ts else .word cur.reverse :: ts

/-- Cuts a line into tokens. A `;` starts a comment (rule R87). The model's own choices, where the spec is
silent (assumption 15, DESIGN CHOICE): a `;` that is the character of a character literal or stands in a
string starts none; a character literal or a string needs no blank before it, so `kload'K'` and
`setkey"Key"` are lines; blanks are spaces and tabs; and a string that is not closed makes the line
rejected. -/
def tokens : Bool → List Char → List Char → Option (List Token)
  | true, [], _ => none
  | true, '"' :: cs, cur => (tokens false cs []).map (.str cur.reverse :: ·)
  | true, c :: cs, cur => tokens true cs (c :: cur)
  | false, [], cur => some (endWord cur [])
  | false, '\'' :: c :: '\'' :: cs, cur => (tokens false cs []).map (endWord cur [.chr c] ++ ·)
  | false, c :: cs, cur =>
    if c = ';' then some (endWord cur [])
    else if c = '"' then (tokens true cs []).map (endWord cur [] ++ ·)
    else if c = ',' then (tokens false cs []).map (endWord cur [.comma] ++ ·)
    else if c = ' ' ∨ c = '\t' then (tokens false cs []).map (endWord cur [] ++ ·)
    else tokens false cs (c :: cur)

/-- The value of a digit in base 10 or 16. -/
def digitValue (c : Char) : Option Nat :=
  let n := c.toNat
  if 48 ≤ n ∧ n ≤ 57 then some (n - 48)
  else if 65 ≤ n ∧ n ≤ 70 then some (n - 55)
  else if 97 ≤ n ∧ n ≤ 102 then some (n - 87)
  else none

/-- Reads digits, most significant first, onto the value so far. -/
def numberFrom (base : Nat) : List Char → Nat → Option Nat
  | [], acc => some acc
  | c :: cs, acc =>
    match digitValue c with
    | some v => if v < base then numberFrom base cs (base * acc + v) else none
    | none => none

/-- A number: hexadecimal `0x4B` or decimal `75` (rule R87). -/
def number : List Char → Option Nat
  | [] => none
  | ['0', 'x'] => none
  | '0' :: 'x' :: ds => numberFrom 16 ds 0
  | ds => numberFrom 10 ds 0

/-- The ASCII code of a character (rule R87). -/
def asciiCode (c : Char) : Option Nat := if c.toNat < 128 then some c.toNat else none

/-- An operand (rule R87). -/
def operand : Token → Option Nat
  | .word cs => number cs
  | .chr c => asciiCode c
  | .str _ => none
  | .comma => none

/-- A list of operands separated by commas, or a string for its characters' codes (rules R10, R88). The
model's own choice, where the spec is silent (assumption 15, DESIGN CHOICE): beside other operands a string
may stand only last (`setkey 0x00, "Key"`), and a list with a string before a comma is rejected. -/
def operandList : List Token → Option (List Nat)
  | [] => some []
  | [.str cs] => cs.mapM asciiCode
  | [t] => (operand t).map fun n => [n]
  | t :: .comma :: t' :: ts =>
    match operand t, operandList (t' :: ts) with
    | some n, some ns => some (n :: ns)
    | _, _ => none
  | _ :: _ :: _ => none

/-- A register's name (rule R35). -/
def regNamed (cs : List Char) : Option Reg :=
  if cs = ['c', 'm', 'd'] then some .cmd
  else if cs = ['s', 't', 'a', 't', 'u', 's'] then some .status
  else if cs = ['e', 'r', 'r'] then some .err
  else if cs = ['k', 'e', 'y', 'l', 'e', 'n'] then some .keylen
  else if cs = ['d', 'o', 'u', 't'] then some .dout
  else if cs = ['i', 'd', 'x'] then some .idx
  else none

/-- A line without operands. -/
def plainLine (ts : List Token) (l : AsmLine) : Option AsmLine := if ts = [] then some l else none

/-- A line with one operand. -/
def operandLine (ts : List Token) (mk : Nat → AsmLine) : Option AsmLine :=
  match ts with
  | [t] => (operand t).map mk
  | _ => none

/-- The line whose first word is `m`, in lower case, and whose operands are `ts` (rules R87, R88). -/
def lineOf (m : List Char) (ts : List Token) : Option AsmLine :=
  if m = ['n', 'o', 'p'] then plainLine ts .nop
  else if m = ['k', 'c', 'l', 'r'] then plainLine ts .kclr
  else if m = ['k', 'l', 'o', 'a', 'd'] then operandLine ts .kload
  else if m = ['s', 'c', 'h', 'e', 'd'] then plainLine ts .sched
  else if m = ['p', 'r', 'o', 'c'] then operandLine ts .proc
  else if m = ['p', 'e', 'e', 'k'] then operandLine ts .peek
  else if m = ['r', 'd'] then
    match ts with
    | [.word r] => (regNamed (r.map Char.toLower)).map .rd
    | _ => none
  else if m = ['c', 'l', 'r', 'e', 'r', 'r'] then operandLine ts .clrerr
  else if m = ['s', 'e', 't', 'k', 'e', 'y'] then (operandList ts).map .setkey
  else if m = ['k', 's', 'b', 'y', 't', 'e'] then plainLine ts .ksbyte
  else if m = ['r', 'e', 'k', 'e', 'y'] then plainLine ts .rekey
  else if m = ['c', 'r', 'y', 'p', 't'] then (operandList ts).map .crypt
  else if m = ['c', 'l', 'r', 'a', 'l', 'l'] then plainLine ts .clrall
  else none

/-- Reads a line of text; "Mnemonics are case-insensitive" (rule R87). None if it is no line. -/
def parseLine (cs : List Char) : Option AsmLine :=
  match tokens false cs [] with
  | some [] => some .blank
  | some (.word m :: ts) => lineOf (m.map Char.toLower) ts
  | _ => none

end Sys2Proof.Machine
end

