-- ==== Sys2Proof/Machine/Platform.lean ====
section
/-! DEFINITION. A platform with any number of instances, "each with its own window and its own complete
state" (rule R188). -/

namespace Sys2Proof.Machine

/-- An instance: its window's base, as a multiple of 64 (rule R51), and its own complete machine. -/
structure Instance where
  block : Nat
  machine : State
  deriving DecidableEq, Repr

/-- The host makes an access at a host address: the instance whose window holds it gets the event, behind
what its script already holds (rules R51, R188). -/
def deliver (ps : List Instance) (addr : Nat) (width : AccessWidth) (enables : BitVec 4)
    (kind : AccessKind) : List Instance :=
  ps.map fun p =>
    match windowOffset p.block addr with
    | none => p
    | some off =>
      let ev := Event.host { off := off, width := width, enables := enables, kind := kind }
      { p with machine := { p.machine with script := p.machine.script ++ [ev] } }

/-- Instance `k` takes one step (rule R188). None if there is no such instance or its step stops. -/
def stepInstance (ps : List Instance) (k : Nat) : Option (List Instance) :=
  match ps[k]? with
  | none => none
  | some p =>
    match step p.machine with
    | .next t => some (ps.set k { p with machine := t })
    | .fault _ => none
    | .refused _ => none

end Sys2Proof.Machine
end

