-- ==== Sys2Proof/Machine/Reference.lean ====
section
/-! DEFINITION. The source's algorithm over natural numbers, as rules R125 and R140 quote it: the pure
functions `schedule` and `process` that the commands are held against. The machine does not use them. -/

namespace Sys2Proof.Machine.Source

/-- An S-box as the source's "ordered sequence of 256 byte-sized slots" (rule R21), by index. -/
abbrev Table := Nat → Nat

/-- "swap S[i] and S[j]". -/
def exchange (S : Table) (a b : Nat) : Table := fun x =>
  if x = a then S b else if x = b then S a else S x

/-- The KSA's S-box and accumulator. -/
structure Build where
  S : Table
  j : Nat

/-- "For i in 0..255 (in order): j = (j + S[i] + key[i mod len(key)]) mod 256; swap S[i] and S[j]" (rule
R125). -/
def ksaStep (key : List Nat) (p : Build) (n : Nat) : Build :=
  let j := (p.j + p.S n + key.getD (n % key.length) 0) % 256
  { S := exchange p.S n j, j := j }

/-- `schedule(key)` (rule R125). -/
def schedule (key : List Nat) : Table :=
  ((List.range 256).foldl (ksaStep key) { S := fun n => n, j := 0 }).S

/-- The PRGA's S-box and indices. -/
structure Stream where
  S : Table
  i : Nat
  j : Nat

/-- The stream a schedule starts: "i = 0, j = 0" (rule R140). -/
def begin (S : Table) : Stream := { S := S, i := 0, j := 0 }

/-- "i = (i + 1) mod 256; j = (j + S[i]) mod 256; swap S[i], S[j]" (rule R140). -/
def advance (p : Stream) : Stream :=
  let i := (p.i + 1) % 256
  let j := (p.j + p.S i) % 256
  { S := exchange p.S i j, i := i, j := j }

/-- "t = S[(S[i] + S[j]) mod 256] (keystream byte)" (rule R140). -/
def keystream (p : Stream) : Nat := p.S ((p.S p.i + p.S p.j) % 256)

/-- "output[k] = b XOR t" for each input byte in turn (rule R140). -/
def process : Stream → List Nat → List Nat
  | _, [] => []
  | p, b :: bs => (b ^^^ keystream (advance p)) :: process (advance p) bs

/-- `encryptOrDecrypt(message, key)` (rule R5): the empty key is `InvalidKey` (rules R126, R134). -/
def encryptOrDecrypt (message key : List Nat) : Option (List Nat) :=
  if key = [] then none else some (process (begin (schedule key)) message)

end Sys2Proof.Machine.Source
end

