-- ==== Sys2Proof/Safety.lean ====
section
/-! DEFINITION. What counts as a safe run, and the invariants and relations that claims speak of: the
invariant of rule R34, what KEYED means (rule R27), and when two engines look alike to a host (rule R33). -/

namespace Sys2Proof.Machine

/-- An event that the core carries out: every event but a bad host access (rules R53, R54). -/
def Event.clean : Event → Bool
  | .host a => a.ok
  | .engine => true
  | .reset _ _ _ => true

/-- The host makes no bad access: "never make one" (rule R205). -/
def State.Safe (s : State) : Prop := ∀ ev ∈ s.script, ev.clean = true

/-- "S is a bijection on {0,...,255} (no duplicates, no gaps)" (rule R34 (c)). -/
def IsBijection (S : Buf) : Prop :=
  (∀ a b, readEntry S a = readEntry S b → a = b) ∧ ∀ v, ∃ a, readEntry S a = v

/-- The invariant of rule R34 (a), (c) and (d). Part (b) is `SameToHost`, kept by every step; part (e) is
the meaning of BUSY (rule R28). -/
structure Rc4Eng.Inv (e : Rc4Eng) : Prop where
  /-- R34 (a). -/
  keylen_le : e.KEYLEN.toNat ≤ 256
  /-- R34 (c). -/
  bijective : e.KEYED = true → IsBijection e.S
  /-- R34 (d). -/
  has_key : e.KEYED = true → 1 ≤ e.KEYLEN.toNat

/-- The PRGA's state right after SCHED for the key now in K (rules R128, R140). -/
def Rc4Eng.scheduled (e : Rc4Eng) : Prga := { S := (ksa e.K e.KEYLEN).S, i := 0#8, j := 0#8 }

/-- What KEYED = 1 says: "the S-box holds the result of a SCHED for the key now in K, possibly advanced
by PROC steps since then" (rule R27). -/
def Rc4Eng.KeyedMeansScheduled (e : Rc4Eng) : Prop :=
  e.KEYED = true → ∃ m : Nat, e.prga = Prga.next^[m] e.scheduled

/-- Two engines that differ at most in what the spec leaves unspecified and calls unobservable (rules
R33, R34 (b)): S while KEYED = 0, K at or beyond KEYLEN, PEND while BUSY = 0. -/
structure SameToHost (e f : Rc4Eng) : Prop where
  keylen : e.KEYLEN = f.KEYLEN
  i : e.i = f.i
  j : e.j = f.j
  dout : e.DOUT = f.DOUT
  keyed : e.KEYED = f.KEYED
  busy : e.BUSY = f.BUSY
  err : e.ERR = f.ERR
  sbox : e.KEYED = true → e.S = f.S
  key : ∀ a : Byte, a.toNat < e.KEYLEN.toNat → readEntry e.K a = readEntry f.K a
  pend : e.BUSY = true → e.PEND = f.PEND

/-- The key in the buffer, `K[0..KEYLEN−1]`, as the source's list of numbers (rules R22, R125). -/
def Rc4Eng.keyBytes (e : Rc4Eng) : List Nat :=
  (List.range e.KEYLEN.toNat).map fun n => (readEntry e.K (BitVec.ofNat 8 n)).toNat

end Sys2Proof.Machine
end

