-- ==== Sys2Proof/Certificates/Slice0/Obligations.lean ====
section
/-! DEFINITION. The statements for the provers, each from a numbered rule of the spec or derived from
its sections. None is about a test program. -/

section encoding
open Sys2Proof

/-- Decoding and encoding are inverse, over every word and every command: no operand bit is dropped and
no word has two meanings (rules R82, R86). -/
def Obligations.DecodeInvertsEncode : Prop :=
  ∀ (w : Word) (i : Instr), decode w = .ok i ↔ encode i = w

/-- "A word w is the listed command exactly when w AND mask = match. No word matches two rows" (rule
R82). -/
def Obligations.DecodeFollowsTheOpcodeTable : Prop :=
  opTable.map (fun r => (r.mnemonic, r.pattern.toNat, r.mask.toNat)) =
    [("NOP", 0x00000000, 0xFFFFFFFF), ("KCLR", 0x00000100, 0xFFFFFFFF),
     ("KLOAD", 0x00000200, 0xFFFFFF00), ("SCHED", 0x00000300, 0xFFFFFFFF),
     ("PROC", 0x00000400, 0xFFFFFF00), ("PEEK", 0x00000500, 0xFFFFFF00)] ∧
  (∀ (w : Word), ∀ r ∈ opTable,
    (w &&& r.mask = r.pattern ↔ ∃ i, decode w = .ok i ∧ i.mnemonic = r.mnemonic)) ∧
  ∀ (w : Word), ∀ r ∈ opTable, ∀ q ∈ opTable,
    w &&& r.mask = r.pattern → w &&& q.mask = q.pattern → r = q

/-- The examples of rule R89. -/
def Obligations.ManualWordsDecode : Prop :=
  decode 0x0000024B#32 = .ok (.kload 0x4B#8) ∧ decode 0x00000450#32 = .ok (.proc 0x50#8) ∧
  decode 0x00000300#32 = .ok .sched ∧ decode 0x000005FF#32 = .ok (.peek 0xFF#8) ∧
  decode 0x00000100#32 = .ok .kclr ∧ decode 0x00000000#32 = .ok .nop ∧
  (∃ why, decode 0x00000301#32 = .error why) ∧ (∃ why, decode 0x00000600#32 = .error why) ∧
  ∃ why, decode 0x00010400#32 = .error why

end encoding

section cycle
open Sys2Proof Sys2Proof.Machine

/-- The illegal words are exactly RSV ≠ 0, OPC 0x06..0xFF, and DATA ≠ 0 on NOP, KCLR and SCHED, and the
engine step of every one of them sets ERR.ILL and changes nothing else but BUSY (rules R81, R84, R85,
R103, R175). -/
def Obligations.IllegalWordsOnlySetIll : Prop :=
  (∀ w : Word, (∃ why, decode w = .error why) ↔
    (w.toNat / 2 ^ 16 ≠ 0 ∨ 6 ≤ w.toNat / 2 ^ 8 % 2 ^ 8 ∨
      (w.toNat / 2 ^ 8 % 2 ^ 8 ∈ [0, 1, 3] ∧ w.toNat % 2 ^ 8 ≠ 0))) ∧
  ∀ (s : State) (why : Illegal) (rest : List Event),
    s.script = .engine :: rest → s.eng.BUSY = true → decode s.eng.PEND = .error why →
    step s = .next { s with
      script := rest
      eng := { s.eng with ERR := s.eng.ERR ||| 0b01000#5, BUSY := false } }

/-- A step of the engine runs the decoded command: when the script gives the engine its turn, `step` is
`exec` of the latched command and then BUSY ← 0 (rule R104). That the engine also has its turn once the
script has run out is the model's own choice (assumption 4), and the same is said there. -/
def Obligations.StepRunsTheDecodedCommand : Prop :=
  ∀ (s : State) (i : Instr) (rest : List Event),
    (s.script = .engine :: rest ∨ (s.script = [] ∧ rest = [])) →
    s.eng.BUSY = true → decode s.eng.PEND = .ok i →
    ∃ t, exec i { s with script := rest } = .next t ∧
      step s = .next { t with eng := { t.eng with BUSY := false } }

/-- A command word placed by `withFetchWord` is what the next step runs: the word is decoded, its command
runs with the word latched, BUSY is cleared and the script is as before. (The placing is the model's own,
assumption 2.) -/
def Obligations.FetchedWordRunsNext : Prop :=
  ∀ (s : State) (w : Nat) (i : Instr), decodeTableWord 32 w = some i →
    ∃ t, exec i { s with eng := { s.eng with PEND := BitVec.ofNat 32 w, BUSY := true } } = .next t ∧
      step (s.withFetchWord 32 w) = .next { t with eng := { t.eng with BUSY := false } }

/-- `RegWrite(CMD, v)` latches any word when BUSY = 0, and otherwise drops it and sets ERR.OVR (rule
R101). -/
def Obligations.CmdWriteLatchesOrOverruns : Prop :=
  ∀ (s : State) (v : Word) (rest : List Event), s.script = writeEvent 0x00#6 v :: rest →
    (s.eng.BUSY = false →
      step s = .next { s with script := rest, eng := { s.eng with PEND := v, BUSY := true } }) ∧
    (s.eng.BUSY = true →
      step s = .next { s with script := rest, eng := { s.eng with ERR := s.eng.ERR ||| 0b10000#5 } })

/-- "While BUSY = 0 the engine has no step. An idle core does nothing" (rule R102). That the turn passes,
and that an idle machine with an empty script stays as it is, is the model's own (assumptions 4, 8). -/
def Obligations.IdleEngineChangesNothing : Prop :=
  ∀ s : State, s.eng.BUSY = false →
    (∀ rest, s.script = .engine :: rest → step s = .next { s with script := rest }) ∧
    (s.script = [] → step s = .next s)

/-- A failing command "sets exactly one ERR flag and changes no other state, apart from the BUSY <- 0",
and a command that does not fail sets none (rules R106, R181). -/
def Obligations.FailingCommandsSetOneFlagOnly : Prop :=
  ∀ (s : State) (rest : List Event), s.script = .engine :: rest → s.eng.BUSY = true →
    (∀ f : ErrFlag,
      ((f = .ill ∧ ∃ why, decode s.eng.PEND = .error why) ∨
       (f = .key ∧ decode s.eng.PEND = .ok .sched ∧ s.eng.KEYLEN.toNat = 0) ∨
       (f = .klen ∧ (∃ d, decode s.eng.PEND = .ok (.kload d)) ∧ s.eng.KEYLEN.toNat = 256) ∨
       (f = .seq ∧ (∃ d, decode s.eng.PEND = .ok (.proc d) ∨ decode s.eng.PEND = .ok (.peek d)) ∧
         s.eng.KEYED = false) →
        step s = .next { s with
          script := rest
          eng := { s.eng with ERR := s.eng.ERR ||| f.bit, BUSY := false } })) ∧
    (∀ i, decode s.eng.PEND = .ok i →
      (i = .sched → s.eng.KEYLEN.toNat ≠ 0) → ((∃ d, i = .kload d) → s.eng.KEYLEN.toNat ≠ 256) →
      ((∃ d, i = .proc d ∨ i = .peek d) → s.eng.KEYED = true) →
      ∃ t, step s = .next t ∧ t.eng.ERR = s.eng.ERR)

/-- "Later commands execute by their own rules whatever ERR holds" (rule R107): with any other flags set,
a command has the same effect and sets the same flags. -/
def Obligations.ErrorsDoNotBlockCommands : Prop :=
  ∀ (i : Instr) (s : State) (x : BitVec 5), ∃ t m,
    exec i s = .next t ∧ t.eng.ERR = s.eng.ERR ||| m ∧
    exec i { s with eng := { s.eng with ERR := x } } =
      .next { t with eng := { t.eng with ERR := x ||| m } }

/-- A set flag stays set over every step, but for a write to ERR with its bit and a reset: "Nothing else
clears a flag" (rules R107, R177). -/
def Obligations.FlagsAreSticky : Prop :=
  ∀ (s t : State) (f : ErrFlag), step s = .next t → s.eng.errSet f = true →
    t.eng.errSet f = true ∨
    (∃ a v rest, s.script = .host a :: rest ∧ a.off = 0x08#6 ∧ a.kind = .write v ∧
      v.getLsbD f.code.val = true) ∨
    ∃ S K PEND rest, s.script = .reset S K PEND :: rest

/-- `RegWrite(ERR, v)` clears exactly the flags whose bit of `v` is 1, whether BUSY is 0 or 1, and changes
nothing else; and in the order "host write, then engine step" the flag that the step sets, in each of the
ways a latched command can fail (rule R106), ends up set whatever was written (rules R38, R177). -/
def Obligations.ErrWriteClearsTheWrittenFlags : Prop :=
  ∀ (s : State) (v : Word) (rest : List Event), s.script = writeEvent 0x08#6 v :: rest →
    ∃ t, step s = .next t ∧
      t = { s with script := rest, eng := { s.eng with ERR := t.eng.ERR } } ∧
      (∀ f : ErrFlag, t.eng.errSet f = (s.eng.errSet f && !v.getLsbD f.code.val)) ∧
      ∀ (f : ErrFlag) (rest' : List Event), rest = .engine :: rest' → s.eng.BUSY = true →
        ((f = .ill ∧ ∃ why, decode s.eng.PEND = .error why) ∨
         (f = .key ∧ decode s.eng.PEND = .ok .sched ∧ s.eng.KEYLEN.toNat = 0) ∨
         (f = .klen ∧ (∃ d, decode s.eng.PEND = .ok (.kload d)) ∧ s.eng.KEYLEN.toNat = 256) ∨
         (f = .seq ∧ (∃ d, decode s.eng.PEND = .ok (.proc d) ∨ decode s.eng.PEND = .ok (.peek d)) ∧
           s.eng.KEYED = false)) →
        ∃ u, step t = .next u ∧ u.eng.errSet f = true

/-- What each command may change: every field of the record of rule R20 is left alone by every command
but its writers in that table, and no command touches the latch, the script or the replies. -/
def Obligations.CommandsChangeOnlyTheirFields : Prop :=
  ∀ (i : Instr) (s : State), ∃ t, exec i s = .next t ∧
    (i ≠ .sched ∧ (∀ d, i ≠ .proc d) →
      t.eng.S = s.eng.S ∧ t.eng.i = s.eng.i ∧ t.eng.j = s.eng.j) ∧
    ((∀ d, i ≠ .kload d) → t.eng.K = s.eng.K) ∧
    (i ≠ .kclr ∧ (∀ d, i ≠ .kload d) → t.eng.KEYLEN = s.eng.KEYLEN) ∧
    ((∀ d, i ≠ .proc d ∧ i ≠ .peek d) → t.eng.DOUT = s.eng.DOUT) ∧
    (i ≠ .kclr ∧ (∀ d, i ≠ .kload d) ∧ i ≠ .sched → t.eng.KEYED = s.eng.KEYED) ∧
    t.eng.BUSY = s.eng.BUSY ∧ t.eng.PEND = s.eng.PEND ∧
    t.script = s.script ∧ t.replies = s.replies

end cycle

section commands
open Sys2Proof Sys2Proof.Machine

/-- NOP completes from every state and changes nothing; with DATA ≠ 0 its word is illegal (rule R110). -/
def Obligations.NopChangesNothing : Prop :=
  encode .nop = 0x00000000#32 ∧ (∀ s : State, exec .nop s = .next s) ∧
  ∀ w : Word, w.toNat / 2 ^ 8 = 0x000000 → w.toNat % 2 ^ 8 ≠ 0 → ∃ why, decode w = .error why

/-- KCLR completes from every state: KEYLEN ← 0, KEYED ← 0, and nothing else (rule R120). With DATA ≠ 0
its word is illegal. -/
def Obligations.KclrEmptiesTheKey : Prop :=
  encode .kclr = 0x00000100#32 ∧
  (∀ s : State, exec .kclr s =
    .next { s with eng := { s.eng with KEYLEN := 0#9, KEYED := false } }) ∧
  ∀ w : Word, w.toNat / 2 ^ 8 = 0x000001 → w.toNat % 2 ^ 8 ≠ 0 → ∃ why, decode w = .error why

/-- KLOAD appends its byte when there is room, clears KEYED and changes nothing else; when KEYLEN is 256
it sets ERR.KLEN and nothing else (rules R122, R173). KEYLEN ≤ 256 holds in every reachable state
(rule R34 (a)). -/
def Obligations.KloadAppendsOneByte : Prop :=
  ∀ (d : Byte) (s : State), s.eng.KEYLEN.toNat ≤ 256 →
    (encode (.kload d)).toNat = 0x00000200 + d.toNat ∧
    (s.eng.KEYLEN.toNat < 256 → ∃ t, exec (.kload d) s = .next t ∧
      t = { s with eng := { s.eng with K := t.eng.K, KEYLEN := t.eng.KEYLEN, KEYED := false } } ∧
      t.eng.KEYLEN.toNat = s.eng.KEYLEN.toNat + 1 ∧
      ∀ a : Byte, readEntry t.eng.K a =
        if a.toNat = s.eng.KEYLEN.toNat then d else readEntry s.eng.K a) ∧
    (s.eng.KEYLEN.toNat = 256 → exec (.kload d) s =
      .next { s with eng := { s.eng with ERR := s.eng.ERR ||| 0b00010#5 } })

/-- KCLR and then a KLOAD of each byte of a key leave `K[n] = key[n]` and KEYLEN = the key's length: "the
n-th KLOAD after KCLR supplies key[n]" (rules R34 (b), R56), and nothing else changes but KEYED. -/
def Obligations.KloadsFillTheKeyInOrder : Prop :=
  ∀ (key : List Byte) (s : State), key.length ≤ 256 → ∃ t,
    runCommands (.kclr :: key.map .kload) s = .next t ∧
    t = { s with eng := { s.eng with K := t.eng.K, KEYLEN := t.eng.KEYLEN, KEYED := false } } ∧
    t.eng.KEYLEN.toNat = key.length ∧
    ∀ n (h : n < key.length), readEntry t.eng.K (BitVec.ofNat 8 n) = key[n]

/-- SCHED with an empty key fails with `InvalidKey`: ERR.KEY is set, and S, i, j, KEYED and all else stay
(rules R126, R134, R172). After KCLR with no KLOAD the key is empty. -/
def Obligations.SchedRejectsTheEmptyKey : Prop :=
  (∀ s : State, s.eng.KEYLEN.toNat = 0 → exec .sched s =
    .next { s with eng := { s.eng with ERR := s.eng.ERR ||| 0b00001#5 } }) ∧
  ∀ s : State, ∃ t, runCommands [.kclr, .sched] s = .next t ∧ t.eng.errSet .key = true ∧
    t.eng.KEYED = false

/-- SCHED computes the source's `schedule(key)`: from every state with a key of 1 to 256 bytes it
completes, its S-box is that of the source's loop over natural numbers, i = j = 0, KEYED = 1, and
nothing else changes (rules R125, R127; i, j and KEYED are rule R128's). -/
def Obligations.SchedComputesTheSourceSchedule : Prop :=
  ∀ s : State, 1 ≤ s.eng.KEYLEN.toNat → s.eng.KEYLEN.toNat ≤ 256 → ∃ t,
    exec .sched s = .next t ∧
    t = { s with eng := { s.eng with S := t.eng.S, i := 0#8, j := 0#8, KEYED := true } } ∧
    ∀ a : Byte, (readEntry t.eng.S a).toNat = Source.schedule s.eng.keyBytes a.toNat

/-- After a successful SCHED, "the 256 values PEEK 0x00 … PEEK 0xFF return are exactly {0, …, 255}"
(rule R132). -/
def Obligations.PeeksAfterSchedAreAPermutation : Prop :=
  ∀ s : State, s.eng.KEYLEN.toNat ≠ 0 → ∃ t, exec .sched s = .next t ∧
    (∀ v : Byte, ∃ a u, exec (.peek a) t = .next u ∧ u.eng.DOUT = v) ∧
    ∀ (a b : Byte) (u v : State), exec (.peek a) t = .next u → exec (.peek b) t = .next v →
      u.eng.DOUT = v.eng.DOUT → a = b

/-- "The S-box after SCHED is a function of the sequence (K[n mod KEYLEN]) for n = 0..255, and of nothing
else" (rule R133). -/
def Obligations.ScheduleDependsOnTheKeyAlone : Prop :=
  ∀ s s' : State, s.eng.KEYLEN.toNat ≠ 0 → s'.eng.KEYLEN.toNat ≠ 0 →
    (∀ n : Nat, n < 256 → readEntry s.eng.K (BitVec.ofNat 8 (n % s.eng.KEYLEN.toNat)) =
      readEntry s'.eng.K (BitVec.ofNat 8 (n % s'.eng.KEYLEN.toNat))) →
    ∃ t t', exec .sched s = .next t ∧ exec .sched s' = .next t' ∧ t.eng.S = t'.eng.S

/-- The wrapping key counter equals `n mod KEYLEN` before every iteration, so the loop with the counter
builds the same S-box and accumulator as rule R128's (rule R129). -/
def Obligations.KeyCounterEqualsTheRemainder : Prop :=
  ∀ (K : Buf) (KEYLEN : BitVec 9), 1 ≤ KEYLEN.toNat → KEYLEN.toNat ≤ 256 →
    (∀ n : Nat, n ≤ 256 → (ksaByCounter K KEYLEN n).kp.toNat = n % KEYLEN.toNat) ∧
    (ksaByCounter K KEYLEN 256).ksa = ksa K KEYLEN

/-- A key longer than 256 bytes: the source's schedule uses its first 256 bytes only, and a host that
loads it all gets ERR.KLEN and the S-box of the source's schedule of the full key (rule R124). -/
def Obligations.LongKeysScheduleAsTheSource : Prop :=
  ∀ (key : List Byte) (s : State), 256 < key.length →
    Source.schedule (key.map BitVec.toNat) = Source.schedule ((key.map BitVec.toNat).take 256) ∧
    ∃ t, runCommands (.kclr :: (key.map .kload ++ [.sched])) s = .next t ∧
      t.eng.errSet .klen = true ∧ t.eng.KEYLEN.toNat = 256 ∧
      ∀ a : Byte, (readEntry t.eng.S a).toNat = Source.schedule (key.map BitVec.toNat) a.toNat

/-- SCHED again, after any commands that load no key, restores the S-box, i and j that the first SCHED
produced, and K and KEYLEN have not changed (rule R131). -/
def Obligations.RekeyRestoresTheSchedule : Prop :=
  ∀ (s : State) (cs : List Instr), s.eng.KEYLEN.toNat ≠ 0 →
    (∀ c ∈ cs, c ≠ .kclr ∧ ∀ d, c ≠ .kload d) →
    ∃ t u v, exec .sched s = .next t ∧ runCommands cs t = .next u ∧ exec .sched u = .next v ∧
      v.eng.S = t.eng.S ∧ v.eng.i = t.eng.i ∧ v.eng.j = t.eng.j ∧
      v.eng.K = s.eng.K ∧ v.eng.KEYLEN = s.eng.KEYLEN

/-- The shared swap exchanges its two entries, changes no other, does nothing when the indices are equal,
and keeps a bijection a bijection (rules R12, R130). -/
def Obligations.SwapExchangesAndKeepsBijections : Prop :=
  ∀ (S : Buf) (a b : Byte),
    readEntry (swapEntries S a b) a = readEntry S b ∧
    readEntry (swapEntries S a b) b = readEntry S a ∧
    (∀ c, c ≠ a → c ≠ b → readEntry (swapEntries S a b) c = readEntry S c) ∧
    swapEntries S a a = S ∧ (IsBijection S → IsBijection (swapEntries S a b))

/-- PROC: with KEYED = 0 it sets ERR.SEQ and nothing else; with KEYED = 1 it completes, advances i, adds
S[i] into j, swaps S[i] and S[j], puts `d XOR S[S[i] + S[j]]` (S after the swap) in DOUT, and changes
nothing else (rules R67, R141, R142, R174). -/
def Obligations.ProcTakesOnePrgaStep : Prop :=
  ∀ (d : Byte) (s : State), (encode (.proc d)).toNat = 0x00000400 + d.toNat ∧
    (s.eng.KEYED = false → exec (.proc d) s =
      .next { s with eng := { s.eng with ERR := s.eng.ERR ||| 0b00100#5 } }) ∧
    (s.eng.KEYED = true → ∃ t, exec (.proc d) s = .next t ∧
      t = { s with eng := { s.eng with
        S := t.eng.S, i := t.eng.i, j := t.eng.j, DOUT := t.eng.DOUT } } ∧
      t.eng.i.toNat = (s.eng.i.toNat + 1) % 256 ∧
      t.eng.j.toNat = (s.eng.j.toNat + (readEntry s.eng.S t.eng.i).toNat) % 256 ∧
      (∀ c, readEntry t.eng.S c =
        if c = t.eng.i then readEntry s.eng.S t.eng.j
        else if c = t.eng.j then readEntry s.eng.S t.eng.i else readEntry s.eng.S c) ∧
      ∃ x : Byte, x.toNat = ((readEntry t.eng.S t.eng.i).toNat +
          (readEntry t.eng.S t.eng.j).toNat) % 256 ∧
        t.eng.DOUT = d ^^^ readEntry t.eng.S x)

/-- When the updated j equals i, PROC leaves S unchanged and looks up `S[2·S[i]]` (rule R144). -/
def Obligations.ProcSelfSwapKeepsTheSbox : Prop :=
  ∀ (d : Byte) (s : State), s.eng.KEYED = true →
    s.eng.j + readEntry s.eng.S (s.eng.i + 1#8) = s.eng.i + 1#8 →
    ∃ t, exec (.proc d) s = .next t ∧ t.eng.S = s.eng.S ∧ t.eng.i = t.eng.j ∧
      t.eng.DOUT = d ^^^ readEntry s.eng.S
        (readEntry s.eng.S (s.eng.i + 1#8) + readEntry s.eng.S (s.eng.i + 1#8))

/-- "DOUT after a PROC is a function of (S, i, j) before it and of d alone", and S, i and j after it do
not depend on d at all (rule R148 and vector V-PRGA-9). -/
def Obligations.ProcDependsOnStreamAndInputAlone : Prop :=
  ∀ (d d' : Byte) (s s' : State), s.eng.KEYED = true → s'.eng.KEYED = true →
    s.eng.S = s'.eng.S → s.eng.i = s'.eng.i → s.eng.j = s'.eng.j →
    ∃ t t', exec (.proc d) s = .next t ∧ exec (.proc d') s' = .next t' ∧
      t.eng.S = t'.eng.S ∧ t.eng.i = t'.eng.i ∧ t.eng.j = t'.eng.j ∧
      t.eng.DOUT ^^^ d = t'.eng.DOUT ^^^ d'

/-- PEEK: with KEYED = 0 it sets ERR.SEQ and nothing else; with KEYED = 1 it puts S[d] in DOUT, for every
index d, and changes nothing else (rules R150, R174). -/
def Obligations.PeekReadsOneEntry : Prop :=
  ∀ (d : Byte) (s : State), (encode (.peek d)).toNat = 0x00000500 + d.toNat ∧
    (s.eng.KEYED = false → exec (.peek d) s =
      .next { s with eng := { s.eng with ERR := s.eng.ERR ||| 0b00100#5 } }) ∧
    (s.eng.KEYED = true → exec (.peek d) s =
      .next { s with eng := { s.eng with DOUT := readEntry s.eng.S d } })

/-- n PROCs give n output bytes, set no error, and keep KEYED; no PROC at all leaves everything as it was
(rule R146). -/
def Obligations.ProcYieldsOneByteEach : Prop :=
  ∀ (msg : List Byte) (s : State), s.eng.KEYED = true → ∃ out t,
    procAll msg s = some (out, t) ∧ out.length = msg.length ∧ t.eng.ERR = s.eng.ERR ∧
    t.eng.KEYED = true ∧ (msg = [] → t = s)

/-- After SCHED, PROC number m uses `i = m mod 256` (rule R143). -/
def Obligations.IndexCountsProcsModulo256 : Prop :=
  ∀ (msg : List Byte) (s : State), s.eng.KEYLEN.toNat ≠ 0 → ∃ t out u,
    exec .sched s = .next t ∧ procAll msg t = some (out, u) ∧
    u.eng.i.toNat = msg.length % 256

/-- PROC of each byte after SCHED is the source's `process(schedule(key), input)`, byte for byte (rules
R140, R141). -/
def Obligations.ProcComputesTheSourceKeystream : Prop :=
  ∀ (msg : List Byte) (s : State), 1 ≤ s.eng.KEYLEN.toNat → s.eng.KEYLEN.toNat ≤ 256 → ∃ t out u,
    exec .sched s = .next t ∧ procAll msg t = some (out, u) ∧
    out.map BitVec.toNat =
      Source.process (Source.begin (Source.schedule s.eng.keyBytes)) (msg.map BitVec.toNat)

/-- The involution: after SCHED, PROC each byte of m to get c; SCHED again, and PROC each byte of c gives
back m (rule R145). -/
def Obligations.DecryptingRestoresTheMessage : Prop :=
  ∀ (msg : List Byte) (s : State), s.eng.KEYLEN.toNat ≠ 0 → ∃ t c u v w,
    exec .sched s = .next t ∧ procAll msg t = some (c, u) ∧
    exec .sched u = .next v ∧ procAll c v = some (msg, w)

end commands

section reset_and_invariants
open Sys2Proof Sys2Proof.Machine

/-- A reset sets every field that the spec gives a value, whatever was latched, and leaves S, K and PEND
the environment's draw; a discarded command never executes: the engine's turn right after the reset
changes nothing but the script (rules R33, R200). That the turn of an idle engine passes, and that the
script and the host's replies outlive a reset, are the model's own (assumptions 1, 8, 10). -/
def Obligations.ResetLeavesTheStatedValues : Prop :=
  ∀ (s : State) (S K : Buf) (PEND : Word) (rest : List Event),
    s.script = .reset S K PEND :: rest → ∃ t, step s = .next t ∧
      t.eng.KEYLEN = 0#9 ∧ t.eng.i = 0x00#8 ∧ t.eng.j = 0x00#8 ∧ t.eng.DOUT = 0x00#8 ∧
      t.eng.KEYED = false ∧ t.eng.BUSY = false ∧ t.eng.ERR = 0b00000#5 ∧
      t.eng.S = S ∧ t.eng.K = K ∧ t.eng.PEND = PEND ∧
      t.script = rest ∧ t.replies = s.replies ∧
      ∀ rest' : List Event, rest = .engine :: rest' → step t = .next { t with script := rest' }

/-- The state `State.reset` is the reset state of rule R33 for some draw, with nothing scripted. (Which
draw, and the empty script, are the model's choice: assumptions 1 and 3.) -/
def Obligations.ResetStateIsAResetDraw : Prop :=
  ∃ (S K : Buf) (PEND : Word), State.reset =
    { eng :=
        { S := S, K := K, KEYLEN := 0#9, i := 0#8, j := 0#8, DOUT := 0#8, KEYED := false,
          BUSY := false, PEND := PEND, ERR := 0#5 },
      script := [], replies := [] }

/-- After reset, STATUS, ERR, KEYLEN, DOUT and IDX read 0x00000000, and the idle core accepts a command at
once: any word written to CMD is latched, with no overrun (rule R201). -/
def Obligations.RegistersReadZeroAfterReset : Prop :=
  ∀ (S K : Buf) (PEND : Word),
    (Rc4Eng.reset S K PEND).regRead 0x04#6 = 0x00000000#32 ∧
    (Rc4Eng.reset S K PEND).regRead 0x08#6 = 0x00000000#32 ∧
    (Rc4Eng.reset S K PEND).regRead 0x0C#6 = 0x00000000#32 ∧
    (Rc4Eng.reset S K PEND).regRead 0x10#6 = 0x00000000#32 ∧
    (Rc4Eng.reset S K PEND).regRead 0x14#6 = 0x00000000#32 ∧
    (Rc4Eng.reset S K PEND).BUSY = false ∧
    ∀ w : Word, (Rc4Eng.reset S K PEND).regWrite 0x00#6 w =
      { Rc4Eng.reset S K PEND with PEND := w, BUSY := true }

/-- The invariant of rule R34 (a), (c), (d), and what KEYED means (rule R27), hold after reset for every
draw. -/
def Obligations.InvariantsHoldAfterReset : Prop :=
  ∀ (S K : Buf) (PEND : Word), (Rc4Eng.reset S K PEND).Inv ∧
    (Rc4Eng.reset S K PEND).KeyedMeansScheduled ∧
    State.reset.eng.Inv ∧ State.reset.eng.KeyedMeansScheduled

/-- Every step keeps KEYLEN ≤ 256, and, while KEYED = 1, the S-box a bijection and the key not empty (rule
R34 (a), (c), (d)). -/
def Obligations.StepsKeepTheInvariant : Prop :=
  ∀ s t : State, s.eng.Inv → step s = .next t → t.eng.Inv

/-- Every step keeps what KEYED says: the S-box, i and j are the SCHED result for the key now in K,
advanced by some number of PRGA steps (rule R27). -/
def Obligations.StepsKeepKeyedMeaningScheduled : Prop :=
  ∀ s t : State, s.eng.KeyedMeansScheduled → step s = .next t → t.eng.KeyedMeansScheduled

/-- "None of the unspecified values can be observed" (rules R33, R34 (b)): two machines that differ only
in S while KEYED = 0, in K at or beyond KEYLEN and in PEND while BUSY = 0 take the same step, give the
host the same replies, stop on the same faults, and still differ only so. -/
def Obligations.UnspecifiedContentsAreUnobservable : Prop :=
  ∀ s s' : State, SameToHost s.eng s'.eng → s.script = s'.script → s.replies = s'.replies →
    (∃ t t', step s = .next t ∧ step s' = .next t' ∧ SameToHost t.eng t'.eng ∧
      t.script = t'.script ∧ t.replies = t'.replies) ∨
    ∃ r, step s = .fault r ∧ step s' = .fault r

/-- For any two draws of the reset contents and any script of the environment, every run gives the host
the same replies or the same fault (rule R33). -/
def Obligations.RepliesDoNotDependOnResetContents : Prop :=
  ∀ (S K S' K' : Buf) (PEND PEND' : Word) (script : List Event) (k : Nat),
    (∃ t t', runSteps k { eng := Rc4Eng.reset S K PEND, script := script, replies := [] } = .next t ∧
      runSteps k { eng := Rc4Eng.reset S' K' PEND', script := script, replies := [] } = .next t' ∧
      t.replies = t'.replies ∧ t.eng.ERR = t'.eng.ERR ∧ t.eng.DOUT = t'.eng.DOUT) ∨
    ∃ r, runSteps k { eng := Rc4Eng.reset S K PEND, script := script, replies := [] } = .fault r ∧
      runSteps k { eng := Rc4Eng.reset S' K' PEND', script := script, replies := [] } = .fault r

end reset_and_invariants

section port
open Sys2Proof Sys2Proof.Machine

/-- A RegRead at each offset of the window returns the register's content, bit by bit, records it for the
host and changes nothing in the core (rules R35 to R42, R52, R58, R178). -/
def Obligations.ReadsReturnTheRegisterMap : Prop :=
  ∀ (s : State) (off : Offset) (rest : List Event), off.toNat % 4 = 0 →
    s.script = readEvent off :: rest → ∃ v : Word,
      step s = .next { s with
        script := rest, replies := s.replies ++ [{ off := off, data := v }] } ∧
      (off = 0x00#6 → v = 0x00000000#32) ∧
      (off = 0x04#6 → v.toNat < 8 ∧ v.getLsbD 0 = s.eng.BUSY ∧ v.getLsbD 1 = s.eng.KEYED ∧
        (v.getLsbD 2 = true ↔ ∃ f, s.eng.errSet f = true)) ∧
      (off = 0x08#6 → v.toNat < 32 ∧ ∀ f : ErrFlag, v.getLsbD f.code.val = s.eng.errSet f) ∧
      (off = 0x0C#6 → v.toNat = s.eng.KEYLEN.toNat) ∧
      (off = 0x10#6 → v.toNat = s.eng.DOUT.toNat) ∧
      (off = 0x14#6 → v.toNat = s.eng.i.toNat + 256 * s.eng.j.toNat) ∧
      (0x18 ≤ off.toNat → v = 0x00000000#32)

/-- Any number of reads in a row all see the same state, whatever is latched: reads have no side effect
and a pending command is not visible before its step (rules R58, R105, R221). -/
def Obligations.ReadsAreIdempotentWhilePending : Prop :=
  ∀ (s : State) (offs : List Offset) (rest : List Event), (∀ o ∈ offs, o.toNat % 4 = 0) →
    s.script = offs.map readEvent ++ rest →
    runSteps offs.length s = .next { s with
      script := rest
      replies := s.replies ++ offs.map fun o => { off := o, data := s.eng.regRead o } }

/-- A write to STATUS, KEYLEN, DOUT, IDX or a reserved offset is ignored (rules R37, R39 to R42, R52). -/
def Obligations.OtherWritesAreIgnored : Prop :=
  ∀ (s : State) (off : Offset) (v : Word) (rest : List Event), off.toNat % 4 = 0 →
    off ≠ 0x00#6 → off ≠ 0x08#6 → s.script = writeEvent off v :: rest →
    step s = .next { s with script := rest }

/-- No host access changes the S-box, the key, an index, the result byte or KEYED: the host reaches them
only through commands (rules R21, R22, R30, R58). -/
def Obligations.HostAccessesLeaveTheCipherAlone : Prop :=
  ∀ (s t : State) (a : Access) (rest : List Event), s.script = .host a :: rest → step s = .next t →
    t.eng.S = s.eng.S ∧ t.eng.K = s.eng.K ∧ t.eng.KEYLEN = s.eng.KEYLEN ∧ t.eng.i = s.eng.i ∧
    t.eng.j = s.eng.j ∧ t.eng.DOUT = s.eng.DOUT ∧ t.eng.KEYED = s.eng.KEYED

/-- A sub-word, wide, partially enabled or misaligned access is a host fault that names it; its bus
response is an error, with data 0x00000000 for a read (rules R53, R54). That a bad write's response has
that data too is the model's own (assumption 5). -/
def Obligations.BadAccessesAreHostFaults : Prop :=
  ∀ (s : State) (a : Access) (rest : List Event), s.script = .host a :: rest →
    (a.width ≠ .bits32 ∨ a.enables ≠ 0b1111#4 ∨ a.off.toNat % 4 ≠ 0) →
    step s = .fault (.badAccess a) ∧
    s.eng.busReply a = { error := true, data := 0x00000000#32 }

/-- Nothing else stops the machine: while the host makes no bad access, every step answers a next state,
and the host's script stays clean (rules R170, R180). That a step is there too when the script has run
out, and when an idle engine has its turn, is the model's own (assumptions 4, 8). -/
def Obligations.CleanScriptsNeverStop : Prop :=
  ∀ (s : State) (k : Nat), s.Safe → ∃ t, runSteps k s = .next t ∧ t.Safe

/-- Bits [8n+7:8n] of a word are the byte at `RC4_BASE + off + n`, and four such bytes make the word
(rule R55). -/
def Obligations.ByteLanesAreLittleEndian : Prop :=
  ∀ w : Word,
    w.toNat = (laneByte w 0).toNat + 2 ^ 8 * (laneByte w 1).toNat + 2 ^ 16 * (laneByte w 2).toNat +
      2 ^ 24 * (laneByte w 3).toNat ∧
    wordOfLanes (laneByte w 0) (laneByte w 1) (laneByte w 2) (laneByte w 3) = w

/-- A window at a multiple of 64 holds exactly the 64 addresses from its base, and the core decodes bits
[5:0] of each as the offset; at `RC4_BASE + off` the access reaches this core at `off` (rule R51). -/
def Obligations.WindowDecodesTheLowAddressBits : Prop :=
  (∀ (block addr : Nat) (off : Offset), windowOffset block addr = some off ↔
    addr = 64 * block + off.toNat) ∧
  ∀ (off : Offset) (width : AccessWidth) (enables : BitVec 4) (kind : AccessKind),
    routeAccess (Config.rc4Base + off.toNat) width enables kind =
      some (.host { off := off, width := width, enables := enables, kind := kind })

end port

section schedules
open Sys2Proof Sys2Proof.Machine

/-- The completion rule: after an accepted command, the reads before its engine step show the state
before it (but for BUSY), and from the first STATUS read that returns BUSY = 0 every read shows the
state after it (rules R61, R62, R105). -/
def Obligations.CompletionMakesEffectsVisible : Prop :=
  ∀ (s : State) (w : Word) (p : Nat) (offs : List Offset) (rest : List Event),
    s.eng.BUSY = false → (∀ o ∈ offs, o.toNat % 4 = 0) →
    s.script = commandEvents w p ++ (offs.map readEvent ++ rest) → ∃ u,
      engineStep { s with eng := { s.eng with PEND := w, BUSY := true } } = .next u ∧
      u.eng.BUSY = false ∧
      runSteps (p + 3 + offs.length) s = .next { s with
        eng := u.eng
        script := rest
        replies := s.replies ++
          (List.replicate p
            { off := 0x04#6
              data := ({ s.eng with PEND := w, BUSY := true } : Rc4Eng).regRead 0x04#6 } ++
          ({ off := 0x04#6, data := u.eng.regRead 0x04#6 } ::
            offs.map fun o => { off := o, data := u.eng.regRead o })) }

/-- Two CMD writes without polling: if the engine steps between them both commands execute, and if it
does not the second word is dropped, ERR.OVR is set, and the first command still executes (rules R176,
R220). -/
def Obligations.OverrunAdmitsBothOutcomes : Prop :=
  ∀ (s : State) (w w' : Word) (rest : List Event), s.eng.BUSY = false →
    (s.script = writeEvent 0x00#6 w :: .engine :: writeEvent 0x00#6 w' :: .engine :: rest →
      ∃ t u, engineStep { s with script := rest, eng := { s.eng with PEND := w, BUSY := true } } =
          .next t ∧
        engineStep { t with eng := { t.eng with PEND := w', BUSY := true } } = .next u ∧
        runSteps 4 s = .next u) ∧
    (s.script = writeEvent 0x00#6 w :: writeEvent 0x00#6 w' :: .engine :: rest →
      ∃ u, engineStep { s with
          script := rest
          eng := { s.eng with PEND := w, BUSY := true, ERR := s.eng.ERR ||| 0b10000#5 } } = .next u ∧
        u.eng.errSet .ovr = true ∧ runSteps 3 s = .next u)

/-- Weak fairness, as the model has it, in any script with no bad access (rule R102): a latched command's
engine step is taken after at most as many steps as there are events left, if none of them is a reset, on
the engine as it was latched but for error flags, and clears BUSY; and with resets among them, which
discard the command (rule R200), BUSY still returns to 0 within one step more. That the engine steps once
the script has run out is the model's own (assumptions 4, 9). -/
def Obligations.LatchedCommandsAreExecuted : Prop :=
  ∀ s : State, s.Safe → s.eng.BUSY = true →
    ((∀ S K PEND, Event.reset S K PEND ∉ s.script) → ∃ k u t,
      k ≤ s.script.length ∧ runSteps k s = .next u ∧
      u.eng = { s.eng with ERR := u.eng.ERR } ∧
      step u = engineStep { u with script := u.script.tail } ∧
      step u = .next t ∧ t.eng.BUSY = false) ∧
    ∃ k t, k ≤ s.script.length + 1 ∧ runSteps k s = .next t ∧ t.eng.BUSY = false

/-- A session under the polling host driver computes the source's `encryptOrDecrypt`: for every key of 1
to 256 bytes, every message and every number of polls before each engine step, from any idle core with
no error flag set, the host's report is exactly the source's output (rules R212, R214). The script
that stands for the driver, and the report as a function of the replies, are the model's (assumption 12). -/
def Obligations.SessionsComputeRc4 : Prop :=
  ∀ (key msg : List Byte) (polls : List Nat) (s : State),
    1 ≤ key.length → key.length ≤ 256 → s.eng.BUSY = false → s.eng.ERR = 0b00000#5 →
    s.script = sessionScript key msg polls → ∃ t rs out,
      runSteps s.script.length s = .next t ∧ t.script = [] ∧ t.replies = s.replies ++ rs ∧
      sessionReport rs = .ok out ∧
      Source.encryptOrDecrypt (msg.map BitVec.toNat) (key.map BitVec.toNat) =
        some (out.map BitVec.toNat)

/-- A session with an empty key reports `InvalidKey` and returns no output: ERR.KEY is set, and ERR.SEQ
too if there was a byte to process (rule R212). -/
def Obligations.SessionsWithoutAKeyFail : Prop :=
  ∀ (msg : List Byte) (polls : List Nat) (s : State),
    s.eng.BUSY = false → s.eng.ERR = 0b00000#5 → s.script = sessionScript [] msg polls → ∃ t rs,
      runSteps s.script.length s = .next t ∧ t.replies = s.replies ++ rs ∧
      sessionReport rs = .error (if msg = [] then 0x00000001#32 else 0x00000005#32)

/-- Instances share nothing: a step of one changes no other, and does not depend on any other (rule
R188). -/
def Obligations.InstancesDoNotInteract : Prop :=
  ∀ (ps qs : List Instance) (k : Nat), stepInstance ps k = some qs →
    qs.length = ps.length ∧ (∀ m : Nat, m ≠ k → qs[m]? = ps[m]?) ∧
    ∀ ps' : List Instance, ps'[k]? = ps[k]? →
      ∃ qs', stepInstance ps' k = some qs' ∧ qs'[k]? = qs[k]?

/-- "The assembler never emits an illegal word": every word a line assembles to decodes to a command; a
line with a byte that does not fit in 8 bits is rejected, the lines of several bytes too; and a command
line assembles to `(OPC << 8) | byte`, "with byte 0 for the no-operand commands" (rule R87). -/
def Obligations.AssemblerEmitsOnlyCommands : Prop :=
  (∀ (l : AsmLine) (acts : List HostAction), assemble l = some acts →
    ∀ a ∈ acts, ∀ w, a.word = some w → ∃ i, decode w = .ok i ∧ a = .command i) ∧
  ∀ b : Nat,
    (assemble (.kload b)).map (List.filterMap HostAction.word) =
      (if b < 256 then some [BitVec.ofNat 32 (0x02 * 2 ^ 8 + b)] else none) ∧
    (assemble (.proc b)).map (List.filterMap HostAction.word) =
      (if b < 256 then some [BitVec.ofNat 32 (0x04 * 2 ^ 8 + b)] else none) ∧
    (assemble (.peek b)).map (List.filterMap HostAction.word) =
      (if b < 256 then some [BitVec.ofNat 32 (0x05 * 2 ^ 8 + b)] else none) ∧
    (assemble .nop).map (List.filterMap HostAction.word) = some [0x00000000#32] ∧
    (assemble .kclr).map (List.filterMap HostAction.word) = some [0x00000100#32] ∧
    (assemble .sched).map (List.filterMap HostAction.word) = some [0x00000300#32] ∧
    ∀ bs : List Nat, b ∈ bs → 256 ≤ b →
      assemble (.setkey bs) = none ∧ assemble (.crypt bs) = none

/-- The pseudo-instructions' expansions (rule R88): `setkey` of 1 to 256 bytes is `kclr` and then a
`kload` of each; `ksbyte` is `proc 0x00`, which from KEYED = 1 puts the bare keystream byte of the next
PRGA step in DOUT; `rekey` is `sched`; `crypt` is a `proc` and a read of DOUT for each byte; `clrall` is
`clrerr 0x1F`, which clears every flag. That `crypt` with no byte is accepted, as no command, is the
model's own (assumption 15). -/
def Obligations.PseudoInstructionsExpand : Prop :=
  (∀ bs : List Byte, assemble (.setkey (bs.map BitVec.toNat)) =
    if 1 ≤ bs.length ∧ bs.length ≤ 256
    then some (.command .kclr :: bs.map fun b => .command (.kload b)) else none) ∧
  assemble .ksbyte = some [.command (.proc 0x00#8)] ∧
  (∀ s : State, s.eng.KEYED = true → ∃ t, exec (.proc 0x00#8) s = .next t ∧
    t.eng.DOUT = s.eng.prga.next.keystream) ∧
  assemble .rekey = some [.command .sched] ∧
  (∀ bs : List Byte, assemble (.crypt (bs.map BitVec.toNat)) =
    some (bs.flatMap fun b => [.command (.proc b), .read .dout])) ∧
  assemble .clrall = assemble (.clrerr 0x1F) ∧
  ∀ (s : State) (rest : List Event),
    s.script = HostAction.events 0 (.clearErr 0x1F#32) ++ rest →
    step s = .next { s with script := rest, eng := { s.eng with ERR := 0b00000#5 } }

end schedules
end

