-- ==== Sys2Proof/Laws/Buf.lean ====
section
/-! SUPPORT. The byte stores: what a read gives after a write and after a swap, and that the
identity is a bijection. -/

namespace Sys2Proof.Machine

variable (B : Buf) (a b c v : Byte)

/-- Two stores that read the same at every index are the same store. -/
theorem buf_ext {B C : Buf} (h : ∀ a, readEntry B a = readEntry C a) : B = C := by
  apply Vector.ext
  intro n hn
  have h' := h (BitVec.ofNat 8 n)
  have e : (BitVec.ofNat 8 n).toNat = n := by simp; omega
  simpa [readEntry, e] using h'

/-- A read after a write: the value written at that index, and the old value elsewhere (rule R12). -/
theorem readEntry_writeEntry :
    readEntry (writeEntry B a v) b = if b = a then v else readEntry B b := by
  unfold readEntry writeEntry
  rw [Vector.getElem_set]
  simp only [BitVec.toNat_inj, eq_comm]

@[simp] theorem readEntry_writeEntry_same : readEntry (writeEntry B a v) a = v := by
  simp [readEntry_writeEntry]

theorem readEntry_writeEntry_other (h : b ≠ a) :
    readEntry (writeEntry B a v) b = readEntry B b := by
  simp [readEntry_writeEntry, h]

/-- A swap exchanges the two entries and leaves every other alone (rule R130). -/
theorem readEntry_swapEntries :
    readEntry (swapEntries B a b) c =
      if c = a then readEntry B b else if c = b then readEntry B a else readEntry B c := by
  unfold swapEntries
  rw [readEntry_writeEntry, readEntry_writeEntry]
  by_cases hb : c = b
  · by_cases ha : c = a <;> simp_all
  · simp [hb]

/-- "leaves S unchanged when a = b" (rule R130). -/
@[simp] theorem swapEntries_self : swapEntries B a a = B :=
  buf_ext fun c => by
    rw [readEntry_swapEntries]
    by_cases h : c = a <;> simp [h]

/-- Swapping the same two indices again undoes the swap. -/
theorem swapEntries_twice : swapEntries (swapEntries B a b) a b = B :=
  buf_ext fun c => by
    simp only [readEntry_swapEntries]
    by_cases ha : c = a <;> by_cases hb : c = b <;> simp_all

/-- The identity permutation maps each index to itself (rule R125 step 1). -/
@[simp] theorem readEntry_identityBuf : readEntry identityBuf a = a := by
  simp [readEntry, identityBuf]

theorem identityBuf_bijection : IsBijection identityBuf :=
  ⟨fun a b h => by simpa using h, fun v => ⟨v, by simp⟩⟩

/-- One PRGA advance, entry by entry (rule R141). -/
theorem readEntry_next (p : Prga) :
    readEntry p.next.S c =
      if c = p.next.i then readEntry p.S p.next.j
      else if c = p.next.j then readEntry p.S p.next.i else readEntry p.S c :=
  readEntry_swapEntries p.S p.next.i p.next.j c

@[simp] theorem Prga.next_i (p : Prga) : p.next.i = p.i + 1#8 := rfl

theorem Prga.next_j (p : Prga) : p.next.j = p.j + readEntry p.S (p.i + 1#8) := rfl

end Sys2Proof.Machine
end

