-- ==== Sys2Proof/Laws/Decode.lean ====
section
/-! SUPPORT. The fields of a word and the word of its fields undo each other, so that a claim about
words can be made about fields. -/

namespace Sys2Proof

theorem fieldsOf_word (f : CommandFields) : fieldsOf f.word = f := by
  obtain ⟨r, o, d⟩ := f
  simp only [fieldsOf, CommandFields.word, CommandFields.mk.injEq]
  refine ⟨?_, ?_, ?_⟩ <;> ext n h <;>
    simp only [BitVec.getElem_extractLsb', BitVec.getLsbD_append] <;>
    split <;> (try split) <;> first | omega | skip
  all_goals (rw [← BitVec.getLsbD_eq_getElem]; congr 1; try omega)

theorem word_fieldsOf (w : Word) : (fieldsOf w).word = w := by
  simp only [fieldsOf, CommandFields.word]
  ext n h
  have at_n : ∀ k, k = n → w.getLsbD k = w[n] := fun k hk => by
    rw [hk, BitVec.getLsbD_eq_getElem h]
  simp only [BitVec.getElem_append, BitVec.getElem_extractLsb']
  split
  · split <;> exact at_n _ (by omega)
  · exact at_n _ (by omega)

/-- The fields as numbers: `w[31:16]`, `w[15:8]`, `w[7:0]` (rule R80). -/
theorem fieldsOf_rsv_toNat (w : Word) : (fieldsOf w).rsv.toNat = w.toNat / 2 ^ 16 := by
  have := w.isLt
  simp [fieldsOf, BitVec.extractLsb'_toNat, Nat.shiftRight_eq_div_pow]
  omega

theorem fieldsOf_opc_toNat (w : Word) : (fieldsOf w).opc.toNat = w.toNat / 2 ^ 8 % 2 ^ 8 := by
  simp [fieldsOf, BitVec.extractLsb'_toNat, Nat.shiftRight_eq_div_pow]

theorem fieldsOf_data_toNat (w : Word) : (fieldsOf w).data.toNat = w.toNat % 2 ^ 8 := by
  simp [fieldsOf, BitVec.extractLsb'_toNat]

/-- A word as the number its fields make (rule R80). -/
theorem word_toNat (f : CommandFields) :
    f.word.toNat = f.rsv.toNat * 2 ^ 16 + f.opc.toNat * 2 ^ 8 + f.data.toNat := by
  have hr := fieldsOf_rsv_toNat f.word
  have ho := fieldsOf_opc_toNat f.word
  have hd := fieldsOf_data_toNat f.word
  rw [fieldsOf_word] at hr ho hd
  omega

/-- Decoding looks at a word's fields only. -/
theorem decode_word (f : CommandFields) : decode f.word = decodeFields f := by
  simp [decode, fieldsOf_word]

theorem decode_encode_fields (i : Instr) : decode (encode i) = decodeFields i.fields :=
  decode_word i.fields

/-- The decoder accepts exactly the fields that pass the checks of WellFormed (rule R85). -/
theorem decodeFields_ok_iff_wf (f : CommandFields) :
    (∃ i, decodeFields f = .ok i) ↔ f.wf = true := by
  obtain ⟨r, o, d⟩ := f
  have opc : ∀ k, k < 2 ^ 8 → (o = BitVec.ofNat 8 k ↔ o.toNat = k) := fun k hk => by
    rw [← BitVec.toNat_inj, BitVec.toNat_ofNat, Nat.mod_eq_of_lt hk]
  simp only [decodeFields, noOperand, CommandFields.wf, CommandFields.rsvOk, CommandFields.opcOk,
    CommandFields.dataOk, opc 0 (by omega), opc 1 (by omega), opc 3 (by omega)]
  by_cases hr : r = 0#16
  · simp only [hr, ne_eq, not_true_eq_false, if_false, beq_self_eq_true, Bool.true_and]
    split <;> simp_all
    · split <;> simp_all
    · split <;> simp_all
    · split <;> simp_all
    · omega
  · simp [hr]

end Sys2Proof
end

