-- ==== Sys2Proof/Laws/State.lean ====
section
/-! SUPPORT. The fields of the state after each update of it, one lemma per field. -/

namespace Sys2Proof.Machine

section withEng
variable (s : State) (e f : Rc4Eng)

@[simp] theorem State.withEng_eng : (s.withEng e).eng = e := rfl
@[simp] theorem State.withEng_script : (s.withEng e).script = s.script := rfl
@[simp] theorem State.withEng_replies : (s.withEng e).replies = s.replies := rfl
@[simp] theorem State.withEng_withEng : (s.withEng e).withEng f = s.withEng f := rfl
@[simp] theorem State.withEng_self : s.withEng s.eng = s := rfl

end withEng

section setErr
variable (e : Rc4Eng) (f : ErrFlag)

@[simp] theorem Rc4Eng.setErr_S : (e.setErr f).S = e.S := rfl
@[simp] theorem Rc4Eng.setErr_K : (e.setErr f).K = e.K := rfl
@[simp] theorem Rc4Eng.setErr_KEYLEN : (e.setErr f).KEYLEN = e.KEYLEN := rfl
@[simp] theorem Rc4Eng.setErr_i : (e.setErr f).i = e.i := rfl
@[simp] theorem Rc4Eng.setErr_j : (e.setErr f).j = e.j := rfl
@[simp] theorem Rc4Eng.setErr_DOUT : (e.setErr f).DOUT = e.DOUT := rfl
@[simp] theorem Rc4Eng.setErr_KEYED : (e.setErr f).KEYED = e.KEYED := rfl
@[simp] theorem Rc4Eng.setErr_BUSY : (e.setErr f).BUSY = e.BUSY := rfl
@[simp] theorem Rc4Eng.setErr_PEND : (e.setErr f).PEND = e.PEND := rfl
@[simp] theorem Rc4Eng.setErr_ERR : (e.setErr f).ERR = e.ERR ||| f.bit := rfl

end setErr

section clearErr
variable (e : Rc4Eng) (v : Word)

@[simp] theorem Rc4Eng.clearErr_S : (e.clearErr v).S = e.S := rfl
@[simp] theorem Rc4Eng.clearErr_K : (e.clearErr v).K = e.K := rfl
@[simp] theorem Rc4Eng.clearErr_KEYLEN : (e.clearErr v).KEYLEN = e.KEYLEN := rfl
@[simp] theorem Rc4Eng.clearErr_i : (e.clearErr v).i = e.i := rfl
@[simp] theorem Rc4Eng.clearErr_j : (e.clearErr v).j = e.j := rfl
@[simp] theorem Rc4Eng.clearErr_DOUT : (e.clearErr v).DOUT = e.DOUT := rfl
@[simp] theorem Rc4Eng.clearErr_KEYED : (e.clearErr v).KEYED = e.KEYED := rfl
@[simp] theorem Rc4Eng.clearErr_BUSY : (e.clearErr v).BUSY = e.BUSY := rfl
@[simp] theorem Rc4Eng.clearErr_PEND : (e.clearErr v).PEND = e.PEND := rfl
@[simp] theorem Rc4Eng.clearErr_ERR :
    (e.clearErr v).ERR = e.ERR &&& ~~~(v.extractLsb' 0 5) := rfl

end clearErr

section prga
variable (e : Rc4Eng)

@[simp] theorem Rc4Eng.prga_S : e.prga.S = e.S := rfl
@[simp] theorem Rc4Eng.prga_i : e.prga.i = e.i := rfl
@[simp] theorem Rc4Eng.prga_j : e.prga.j = e.j := rfl

end prga

section outcomes
variable (s : State) (e : Rc4Eng) (f : ErrFlag) (r : State → Result) (x : Fault) (y : Refusal)

@[simp] theorem complete_eq : complete e s = .next (s.withEng e) := rfl
@[simp] theorem failWith_eq : failWith f s = .next (s.withEng (s.eng.setErr f)) := rfl
@[simp] theorem commit_next :
    commit (.next s) = .next (s.withEng { s.eng with BUSY := false }) := rfl
@[simp] theorem andThen_next : andThen (.next s) r = r s := rfl
@[simp] theorem andThen_fault : andThen (.fault x) r = .fault x := rfl
@[simp] theorem andThen_refused : andThen (.refused y) r = .refused y := rfl

end outcomes

end Sys2Proof.Machine
end

