-- ==== Sys2Proof/Laws/Exec.lean ====
section
/-! SUPPORT. What a command, an engine step and a host access can do at all: each inversion lemma says
it once, and later proofs cite it. -/

namespace Sys2Proof.Machine

/-- A command always completes; what it leaves is a function of the engine alone, and the script and the
replies stay. -/
theorem exec_function (c : Instr) :
    ∃ g : Rc4Eng → Rc4Eng, ∀ s, exec c s = .next (s.withEng (g s.eng)) := by
  cases c with
  | nop => exact ⟨fun e => e, fun _ => rfl⟩
  | kclr => exact ⟨fun e => { e with KEYLEN := 0#9, KEYED := false }, fun _ => rfl⟩
  | kload d =>
    refine ⟨fun e => if e.KEYLEN = 256#9 then e.setErr .klen else { e with
      K := writeEntry e.K (keyWriteIndex e.KEYLEN) d, KEYLEN := e.KEYLEN + 1#9, KEYED := false },
      fun s => ?_⟩
    by_cases h : s.eng.KEYLEN = 256#9 <;> simp [exec, execKload, h]
  | sched =>
    refine ⟨fun e => if e.KEYLEN = 0#9 then e.setErr .key else { e with
      S := (ksa e.K e.KEYLEN).S, i := 0#8, j := 0#8, KEYED := true }, fun s => ?_⟩
    by_cases h : s.eng.KEYLEN = 0#9 <;> simp [exec, execSched, h]
  | proc d =>
    refine ⟨fun e => if e.KEYED = false then e.setErr .seq else { e with
      S := e.prga.next.S, i := e.prga.next.i, j := e.prga.next.j
      DOUT := d ^^^ e.prga.next.keystream }, fun s => ?_⟩
    by_cases h : s.eng.KEYED = false <;> simp [exec, execProc, h]
  | peek d =>
    refine ⟨fun e => if e.KEYED = false then e.setErr .seq else { e with DOUT := readEntry e.S d },
      fun s => ?_⟩
    by_cases h : s.eng.KEYED = false <;> simp [exec, execPeek, h]

theorem exec_completes (c : Instr) (s : State) : ∃ e, exec c s = .next (s.withEng e) :=
  let ⟨g, h⟩ := exec_function c
  ⟨g s.eng, h s⟩

section meanings
variable (d : Byte) (s : State)

/-- Each command's two cases, as the branch its own check takes (rules R106, R122, R128, R141, R150). -/
theorem exec_kload_full (h : s.eng.KEYLEN = 256#9) :
    exec (.kload d) s = .next (s.withEng (s.eng.setErr .klen)) := by
  simp [exec, execKload, h]

theorem exec_kload_room (h : s.eng.KEYLEN ≠ 256#9) :
    exec (.kload d) s = .next (s.withEng { s.eng with
      K := writeEntry s.eng.K (keyWriteIndex s.eng.KEYLEN) d
      KEYLEN := s.eng.KEYLEN + 1#9
      KEYED := false }) := by
  simp [exec, execKload, h]

theorem exec_sched_empty (h : s.eng.KEYLEN = 0#9) :
    exec .sched s = .next (s.withEng (s.eng.setErr .key)) := by
  simp [exec, execSched, h]

theorem exec_sched_key (h : s.eng.KEYLEN ≠ 0#9) :
    exec .sched s = .next (s.withEng { s.eng with
      S := (ksa s.eng.K s.eng.KEYLEN).S, i := 0#8, j := 0#8, KEYED := true }) := by
  simp [exec, execSched, h]

theorem exec_proc_unkeyed (h : s.eng.KEYED = false) :
    exec (.proc d) s = .next (s.withEng (s.eng.setErr .seq)) := by
  simp [exec, execProc, h]

theorem exec_proc_keyed (h : s.eng.KEYED = true) :
    exec (.proc d) s = .next (s.withEng { s.eng with
      S := s.eng.prga.next.S, i := s.eng.prga.next.i, j := s.eng.prga.next.j
      DOUT := d ^^^ s.eng.prga.next.keystream }) := by
  simp [exec, execProc, h]

theorem exec_peek_unkeyed (h : s.eng.KEYED = false) :
    exec (.peek d) s = .next (s.withEng (s.eng.setErr .seq)) := by
  simp [exec, execPeek, h]

theorem exec_peek_keyed (h : s.eng.KEYED = true) :
    exec (.peek d) s = .next (s.withEng { s.eng with DOUT := readEntry s.eng.S d }) := by
  simp [exec, execPeek, h]

/-- KEYLEN as a number and as a register. -/
theorem keylen_eq_zero_iff (k : BitVec 9) : k = 0#9 ↔ k.toNat = 0 := by
  rw [← BitVec.toNat_inj]; simp

theorem keylen_eq_full_iff (k : BitVec 9) : k = 256#9 ↔ k.toNat = 256 := by
  rw [← BitVec.toNat_inj]; simp

end meanings

/-- The engine a command leaves. -/
def engineAfter (c : Instr) (s : State) : Rc4Eng :=
  match exec c s with
  | .next t => t.eng
  | .fault _ => s.eng
  | .refused _ => s.eng

theorem exec_eq_engineAfter (c : Instr) (s : State) :
    exec c s = .next (s.withEng (engineAfter c s)) := by
  obtain ⟨e, h⟩ := exec_completes c s
  simp [engineAfter, h]

/-- Commands on machines with the same engine leave the same engine. -/
theorem engineAfter_congr (c : Instr) {s s' : State} (h : s.eng = s'.eng) :
    engineAfter c s = engineAfter c s' := by
  obtain ⟨g, hg⟩ := exec_function c
  simp [engineAfter, hg, h]

/-- The engine step always completes: the decoded command's engine, or ERR.ILL, and BUSY cleared
(rule R104). -/
theorem engineStep_next (s : State) :
    (∃ c, decode s.eng.PEND = .ok c ∧
      engineStep s = .next (s.withEng { engineAfter c s with BUSY := false })) ∨
    (∃ why, decode s.eng.PEND = .error why ∧
      engineStep s = .next (s.withEng { s.eng.setErr .ill with BUSY := false })) := by
  cases h : decode s.eng.PEND with
  | ok c => left; exact ⟨c, rfl, by simp [engineStep, h, exec_eq_engineAfter c s]⟩
  | error why => right; exact ⟨why, rfl, by simp [engineStep, h]⟩

/-- What a host access does: a good read is logged, a good write acts on the engine, and a bad access
is a host fault (rules R52 to R54). -/
theorem hostAccess_cases (a : Access) (s : State) :
    (a.ok = true ∧ a.kind = .read ∧ hostAccess a s =
      .next { s with replies := s.replies ++ [{ off := a.off, data := s.eng.regRead a.off }] }) ∨
    (a.ok = true ∧ ∃ v, a.kind = .write v ∧
      hostAccess a s = .next (s.withEng (s.eng.regWrite a.off v))) ∨
    (a.ok = false ∧ hostAccess a s = .fault (.badAccess a)) := by
  cases hok : a.ok with
  | false => right; right; exact ⟨rfl, by simp [hostAccess, hok]⟩
  | true =>
    cases hk : a.kind with
    | read => left; exact ⟨rfl, rfl, by simp [hostAccess, hok, hk]⟩
    | write v => right; left; exact ⟨rfl, v, rfl, by simp [hostAccess, hok, hk]⟩

/-- What RegWrite does to the engine: CMD latches or overruns, ERR clears, the rest is ignored (rules
R52, R101, R177). -/
theorem regWrite_cases (e : Rc4Eng) (off : Offset) (v : Word) :
    (regAt off = .cmd ∧ e.BUSY = false ∧ e.regWrite off v = { e with PEND := v, BUSY := true }) ∨
    (regAt off = .cmd ∧ e.BUSY = true ∧ e.regWrite off v = e.setErr .ovr) ∨
    (regAt off = .err ∧ e.regWrite off v = e.clearErr v) ∨
    (regAt off ≠ .cmd ∧ regAt off ≠ .err ∧ e.regWrite off v = e) := by
  cases h : regAt off <;> cases hb : e.BUSY <;> simp [Rc4Eng.regWrite, Rc4Eng.writeCmd, h, hb]

/-- A step performs the next event, or takes the engine's turn when there is none (rule R61). -/
theorem step_cons {s : State} {ev : Event} {rest : List Event} (h : s.script = ev :: rest) :
    step s = performEvent ev { s with script := rest } := by
  simp [step, stepScript, h]

theorem step_nil {s : State} (h : s.script = []) : step s = engineTurn s := by
  simp [step, stepScript, h]

/-- The engine's turn always completes. -/
theorem engineTurn_next (s : State) : ∃ e, engineTurn s = .next (s.withEng e) := by
  unfold engineTurn
  split
  · obtain ⟨c, -, h⟩ | ⟨why, -, h⟩ := engineStep_next s <;> exact ⟨_, h⟩
  · exact ⟨s.eng, by simp⟩

end Sys2Proof.Machine
end

