-- ==== Sys2Proof/Laws/Flags.lean ====
section
/-! SUPPORT. The error flags one at a time: what setting and clearing leave of each (rules R171, R177). -/

namespace Sys2Proof.Machine

theorem ErrFlag.getLsbD_bit (f g : ErrFlag) : f.bit.getLsbD g.code.val = decide (f = g) := by
  cases f <;> cases g <;> decide

/-- `set ERR.X` sets flag X and leaves the others (rule R171). -/
theorem errSet_setErr (e : Rc4Eng) (f g : ErrFlag) :
    (e.setErr f).errSet g = (e.errSet g || decide (f = g)) := by
  unfold Rc4Eng.errSet
  rw [Rc4Eng.setErr_ERR, BitVec.getLsbD_or, ErrFlag.getLsbD_bit]

/-- A W1C write clears the flags whose bits are 1 and leaves the others (rule R177). -/
theorem errSet_clearErr (e : Rc4Eng) (v : Word) (f : ErrFlag) :
    (e.clearErr v).errSet f = (e.errSet f && !v.getLsbD f.code.val) := by
  cases f <;> simp [Rc4Eng.errSet, ErrFlag.code]

/-- Flags depend on ERR only. -/
theorem errSet_congr {e e' : Rc4Eng} (h : e.ERR = e'.ERR) (f : ErrFlag) : e.errSet f = e'.errSet f := by
  simp [Rc4Eng.errSet, h]

end Sys2Proof.Machine
end

