-- ==== Sys2Proof/Laws/PerInstr.lean ====
section
/-! SUPPORT. Per command: its fields pass every check of WellFormed, and its word is
`(OPC << 8) | byte` with RSV = 0 (rules R81, R84, R87). -/

namespace Sys2Proof.Laws.EncodesOpcodeAndByte

/-- The command's fields are well-formed, and its word is its opcode and its byte. -/
def Statement (i : Instr) : Prop :=
  i.fields.wf = true ∧ (encode i).toNat = i.fields.opc.toNat * 2 ^ 8 + i.fields.data.toNat

theorem of_fields {i : Instr} (hwf : i.fields.wf = true) (hrsv : i.fields.rsv = 0#16) :
    Statement i :=
  ⟨hwf, by rw [encode, word_toNat, hrsv]; simp⟩

theorem nop : Statement .nop := of_fields rfl rfl
theorem kclr : Statement .kclr := of_fields rfl rfl
theorem kload (d : Byte) : Statement (.kload d) :=
  of_fields (by simp [Instr.fields, CommandFields.wf, CommandFields.rsvOk, CommandFields.opcOk,
    CommandFields.dataOk]) rfl
theorem sched : Statement .sched := of_fields rfl rfl
theorem proc (d : Byte) : Statement (.proc d) :=
  of_fields (by simp [Instr.fields, CommandFields.wf, CommandFields.rsvOk, CommandFields.opcOk,
    CommandFields.dataOk]) rfl
theorem peek (d : Byte) : Statement (.peek d) :=
  of_fields (by simp [Instr.fields, CommandFields.wf, CommandFields.rsvOk, CommandFields.opcOk,
    CommandFields.dataOk]) rfl

end Sys2Proof.Laws.EncodesOpcodeAndByte
end

