-- ==== Sys2Proof/Laws/Port.lean ====
section
/-! SUPPORT. Steps by whole-word host accesses: one lemma for a read, one for a write, one for the engine's
turn, which later proofs cite instead of unfolding the step (rules R52, R61). -/

namespace Sys2Proof.Machine

theorem ok_readAt {off : Offset} (h : off.toNat % 4 = 0) : (Access.readAt off).ok = true := by
  simp [Access.ok, Access.readAt, h]

theorem ok_writeAt {off : Offset} (v : Word) (h : off.toNat % 4 = 0) :
    (Access.writeAt off v).ok = true := by
  simp [Access.ok, Access.writeAt, h]

/-- An aligned read is answered and logged, and changes nothing else (rules R52, R58). -/
theorem step_read {s : State} {off : Offset} {rest : List Event} (ha : off.toNat % 4 = 0)
    (h : s.script = readEvent off :: rest) :
    step s = .next { s with
      script := rest, replies := s.replies ++ [{ off := off, data := s.eng.regRead off }] } := by
  rw [step_cons h]
  simp only [readEvent, performEvent, hostAccess, ok_readAt ha, if_true]
  simp [Access.readAt]

/-- An aligned write takes the register's write action (rule R52). -/
theorem step_write {s : State} {off : Offset} {v : Word} {rest : List Event}
    (ha : off.toNat % 4 = 0) (h : s.script = writeEvent off v :: rest) :
    step s = .next { s with script := rest, eng := s.eng.regWrite off v } := by
  rw [step_cons h]
  simp only [writeEvent, performEvent, hostAccess, ok_writeAt v ha, if_true]
  simp [Access.writeAt, State.withEng]

/-- The engine's turn with a command latched is an engine step (rule R102). -/
theorem step_engine {s : State} {rest : List Event} (hb : s.eng.BUSY = true)
    (h : s.script = .engine :: rest) : step s = engineStep { s with script := rest } := by
  rw [step_cons h]
  simp [performEvent, engineTurn, hb]

/-- A good access is at the offset its word slot names: slot 2 is ERR at 0x08 (rule R35). -/
theorem off_of_regAt_err {a : Access} (hok : a.ok = true) (h : regAt a.off = .err) :
    a.off = 0x08#6 := by
  have h4 : a.off.toNat % 4 = 0 := by
    simp only [Access.ok, Bool.and_eq_true, beq_iff_eq] at hok
    exact hok.2
  have h2 : a.off.toNat / 4 = 2 := by
    unfold regAt at h
    split at h <;> first | assumption | cases h
  apply BitVec.eq_of_toNat_eq
  simp only [BitVec.toNat_ofNat]
  omega

end Sys2Proof.Machine
end

