-- ==== Sys2Proof/Tests/Slice0.lean ====
section
/-! SUPPORT. The model's own tests: ill-formed words that the checks refuse, words written out from the
spec's encodings, single steps against the vectors of 95_test_vectors.md, and for each statement with
hypotheses a witness that meets them. Every expected value is the spec's. -/

namespace Sys2Proof.Tests
open Sys2Proof Sys2Proof.Machine

/-! ## Small states -/

/-- The engine after reset. -/
def fresh : Rc4Eng := State.reset.eng

/-- A machine with engine `e` and a script. -/
def machine (e : Rc4Eng) (script : List Event) : State := { eng := e, script := script, replies := [] }

/-- The engine `e` with command word `w` latched. -/
def latched (e : Rc4Eng) (w : Word) : Rc4Eng := { e with PEND := w, BUSY := true }

/-- What can be seen of the next state, if there is one. -/
def seen {α : Type} (r : Result) (view : State → α) : Option α :=
  match r with
  | .next s => some (view s)
  | .fault _ => none
  | .refused _ => none

/-- Where a result stops, if it does. -/
def stop : Result → Option Fault
  | .next _ => none
  | .fault r => some r
  | .refused _ => none

/-- The S-box after SCHED with the key "Key" (V-KSA-1). -/
def keyTable : List Nat :=
  [0x4b, 0x33, 0x84, 0x9d, 0xc0, 0xc8, 0x1d, 0xa8, 0x4a, 0xf3, 0x83, 0xe4, 0x12, 0x70, 0x82, 0x90] ++
  [0x5b, 0x8f, 0xec, 0x22, 0x29, 0xb9, 0xcc, 0x5c, 0xbf, 0xd8, 0xba, 0x0e, 0x6e, 0x4d, 0x08, 0x23] ++
  [0xbc, 0x1b, 0x67, 0x89, 0xb6, 0x40, 0x3b, 0x69, 0xd7, 0xf7, 0xee, 0x7e, 0x8a, 0x1a, 0xe3, 0x37] ++
  [0x15, 0x54, 0x68, 0x4e, 0x87, 0x71, 0xff, 0xac, 0x38, 0x59, 0xbb, 0x1c, 0x3e, 0x20, 0x2d, 0x41] ++
  [0x24, 0xfb, 0x98, 0x74, 0xbd, 0x07, 0x6c, 0x2e, 0xca, 0xa2, 0x9f, 0x53, 0x1f, 0x9a, 0x0b, 0xe7] ++
  [0x6a, 0x0d, 0x00, 0xd9, 0x14, 0xe5, 0x66, 0x76, 0x52, 0x55, 0xb0, 0x61, 0xd6, 0x97, 0x06, 0x04] ++
  [0x8e, 0xf5, 0x86, 0x3c, 0xe1, 0xa5, 0x03, 0x27, 0x56, 0x65, 0x5a, 0x7f, 0xc5, 0x48, 0x75, 0x92] ++
  [0x2f, 0xc3, 0x2a, 0x80, 0x64, 0xfd, 0xae, 0xd1, 0x19, 0xef, 0x72, 0xdb, 0xf4, 0xea, 0xa3, 0xbe] ++
  [0xb7, 0xeb, 0x36, 0x62, 0x99, 0x79, 0x7b, 0x26, 0x28, 0xb4, 0xb3, 0x8b, 0xcb, 0x46, 0x05, 0x18] ++
  [0x2b, 0xc7, 0xe0, 0xd5, 0xd2, 0xdc, 0xad, 0xf1, 0x17, 0x58, 0xc4, 0x4f, 0xf2, 0x3a, 0x09, 0x49] ++
  [0x8d, 0xa0, 0xc1, 0xb5, 0x13, 0xe9, 0x3f, 0x50, 0x1e, 0x51, 0x6f, 0xe2, 0xaf, 0x96, 0xcf, 0xde] ++
  [0x11, 0x77, 0xe6, 0x60, 0x47, 0x57, 0x85, 0xc6, 0x5f, 0xa9, 0x9b, 0xd4, 0x42, 0x31, 0xcd, 0x02] ++
  [0x4c, 0x73, 0x25, 0xc2, 0x39, 0x16, 0xdf, 0xb2, 0x10, 0x0c, 0x5d, 0xed, 0xf0, 0x21, 0xce, 0x45] ++
  [0x35, 0x9e, 0x94, 0x0f, 0x7a, 0x88, 0xa1, 0xf6, 0xc9, 0x2c, 0xab, 0x43, 0xb8, 0x6d, 0xfc, 0x32] ++
  [0xaa, 0x91, 0x95, 0x8c, 0x5e, 0xda, 0x9c, 0xd0, 0x01, 0x81, 0x44, 0x30, 0xfe, 0xa4, 0xfa, 0xa7] ++
  [0xf8, 0x7d, 0xb1, 0xa6, 0xe8, 0x78, 0x6b, 0x63, 0xf9, 0xdd, 0x34, 0x7c, 0x0a, 0xd3, 0x3d, 0x93]

/-- The S-box of `keyTable`. -/
def keySbox : Buf := Vector.ofFn fun a => BitVec.ofNat 8 (keyTable.getD a.val 0)

/-- The key "Key" loaded and not yet scheduled. -/
def loaded : Rc4Eng :=
  { fresh with
    K := writeEntry (writeEntry (writeEntry fresh.K 0 0x4B) 1 0x65) 2 0x79
    KEYLEN := 3#9 }

/-- The key "Key" scheduled. -/
def keyed : Rc4Eng := { loaded with S := keySbox, KEYED := true }

/-- A full key buffer of zeros. -/
def full : Rc4Eng := { fresh with K := Vector.replicate 256 0#8, KEYLEN := 256#9 }

/-- The one-byte key 0x00. -/
def zeroKey : Rc4Eng := { fresh with K := Vector.replicate 256 0#8, KEYLEN := 1#9 }

/-! ## Ill-formed words and lines are refused -/

theorem test_wf_refuses_reserved_bits :
    (fieldsOf 0x00010400#32).rsvOk = false ∧ (fieldsOf 0x80000300#32).rsvOk = false ∧
    (fieldsOf 0x00010400#32).wf = false := by decide

theorem test_wf_refuses_reserved_opcodes :
    (fieldsOf 0x00000600#32).opcOk = false ∧ (fieldsOf 0x0000FF00#32).opcOk = false ∧
    (fieldsOf 0x00000600#32).wf = false := by decide

theorem test_wf_refuses_stray_data :
    (fieldsOf 0x00000001#32).dataOk = false ∧ (fieldsOf 0x000001FF#32).dataOk = false ∧
    (fieldsOf 0x00000380#32).dataOk = false ∧ (fieldsOf 0x00000380#32).wf = false := by decide

theorem test_wf_accepts_any_operand :
    (fieldsOf 0x000002FF#32).wf = true ∧ (fieldsOf 0x00000400#32).wf = true := by decide

theorem test_assembler_rejects_ill_formed_lines :
    (AsmLine.kload 256).wf = false ∧ (AsmLine.setkey []).wf = false ∧
    (AsmLine.setkey (List.replicate 257 0)).wf = false ∧ (AsmLine.crypt [0, 256]).wf = false ∧
    (AsmLine.rd .reserved).wf = false ∧ (AsmLine.clrerr (2 ^ 32)).wf = false := by decide +kernel

/-! ## Words written out from the encodings (rules R80, R82; section 2.1 of the vectors) -/

theorem test_decode_nop : (decode 0b00000000000000000000000000000000#32).toOption = some .nop := by decide
theorem test_decode_kclr : (decode 0b00000000000000000000000100000000#32).toOption = some .kclr := by
  decide
theorem test_decode_kload :
    (decode 0b00000000000000000000001001001011#32).toOption = some (.kload 0x4B) := by decide
theorem test_decode_sched : (decode 0b00000000000000000000001100000000#32).toOption = some .sched := by
  decide
theorem test_decode_proc :
    (decode 0b00000000000000000000010001010000#32).toOption = some (.proc 0x50) := by decide
theorem test_decode_peek :
    (decode 0b00000000000000000000010111111111#32).toOption = some (.peek 0xFF) := by decide

theorem test_decode_illegal :
    ([0x00000001, 0x000001FF, 0x00000380, 0x00000600, 0x0000FF00, 0x00010400, 0x80000300].map
      fun w : Word => (decode w).toOption) = List.replicate 7 none := by decide

theorem test_encode_program_words :
    encode (.kload 0x57) = 0x00000257#32 ∧ encode (.proc 0x78) = 0x00000478#32 ∧
    encode (.peek 0x33) = 0x00000533#32 ∧ encode .sched = 0x00000300#32 := by decide

theorem test_table_word : decodeTableWord 32 0x000004AF = some (.proc 0xAF) ∧
    decodeTableWord 32 0x00000600 = none := by decide

/-! ## One command each -/

/-- V-CYC-3 and the example of rule R110. -/
theorem test_nop : seen (exec .nop (machine { fresh with i := 22, j := 22, DOUT := 0x17 } []))
    (fun t => (t.eng.ERR, t.eng.regRead 0x14#6, t.eng.DOUT, t.eng.KEYLEN, t.eng.KEYED)) =
    some (0, 0x00001616, 0x17, 0, false) := by decide

/-- V-KEY-4. -/
theorem test_kclr : seen (exec .kclr (machine { keyed with DOUT := 0xBB, i := 1, j := 51 } []))
    (fun t => (t.eng.KEYLEN, t.eng.KEYED, t.eng.DOUT, t.eng.regRead 0x14#6)) =
    some (0, false, 0xBB, 0x00003301) := by decide

/-- V-KEY-3: "From KEYED = 1, KEYLEN = 3: kload 0x00 gives KEYLEN 4 and KEYED 0". -/
theorem test_kload : seen (exec (.kload 0x00) (machine keyed []))
    (fun t => (t.eng.KEYLEN, t.eng.KEYED, readEntry t.eng.K 2, readEntry t.eng.K 3)) =
    some (4, false, 0x79, 0x00) := by decide

/-- V-KEY-2: the 257th byte. -/
theorem test_kload_full : seen (exec (.kload 0x00) (machine full []))
    (fun t => (t.eng.KEYLEN, t.eng.ERR)) = some (256, 0x02) := by decide

set_option maxRecDepth 100000 in
/-- V-KSA-1: the whole S-box of "Key". -/
theorem test_sched : seen (exec .sched (machine { loaded with i := 7, j := 9 } []))
    (fun t => (t.eng.S.toList.map BitVec.toNat, t.eng.i, t.eng.j, t.eng.KEYED)) =
    some (keyTable, 0, 0, true) := by decide +kernel

/-- V-KSA-8. -/
theorem test_sched_empty : seen (exec .sched (machine fresh []))
    (fun t => (t.eng.ERR, t.eng.KEYED)) = some (0x01, false) := by decide

/-- V-PRGA-2. -/
theorem test_proc : seen (exec (.proc 0x50) (machine keyed []))
    (fun t => (t.eng.DOUT, t.eng.i, t.eng.j, readEntry t.eng.S 1, readEntry t.eng.S 51)) =
    some (0xBB, 1, 51, 0x4E, 0x33) := by decide +kernel

/-- V-PRGA-4, the self-swap: `S[22] = 204` and `S[152] = 0x17`. -/
theorem test_proc_self_swap :
    seen (exec (.proc 0x00) (machine { keyed with
        S := writeEntry (writeEntry identityBuf 22 204) 152 0x17, i := 21, j := 74 } []))
      (fun t => (t.eng.DOUT, t.eng.regRead 0x14#6, readEntry t.eng.S 22)) =
    some (0x17, 0x00001616, 204) := by decide +kernel

/-- V-PEEK-1. -/
theorem test_peek : seen (exec (.peek 0x4B) (machine keyed []))
    (fun t => (t.eng.DOUT, t.eng.regRead 0x14#6)) = some (0x53, 0) := by decide +kernel

/-- V-PEEK-3. -/
theorem test_peek_unkeyed : seen (exec (.peek 0x00) (machine { loaded with DOUT := 0x0A } []))
    (fun t => (t.eng.DOUT, t.eng.ERR)) = some (0x0A, 0x04) := by decide

/-! ## The port and the command cycle -/

/-- V-CYC-2: the second write is dropped and flagged. -/
theorem test_overrun :
    seen (step (machine (latched keyed 0x00000450) [writeEvent 0x00#6 0x0000046C]))
      (fun t => (t.eng.ERR, t.eng.PEND, t.eng.BUSY)) = some (0x10, 0x00000450, true) := by decide

/-- V-CYC-4. -/
theorem test_illegal_step : seen (step (machine (latched keyed 0x00000600) [.engine]))
    (fun t => (t.eng.ERR, t.eng.BUSY, t.eng.KEYED, t.eng.KEYLEN)) = some (0x08, false, true, 3) := by
  decide

/-- V-ERR-1. -/
theorem test_clear_errors :
    seen (step (machine { keyed with ERR := 0x0D } [writeEvent 0x08#6 0x04])) (·.eng.ERR) =
      some 0x09 ∧
    seen (step (machine { keyed with ERR := 0x0D } [writeEvent 0x08#6 0xFFFFFFFF])) (·.eng.ERR) =
      some 0x00 := by decide

/-- V-ERR-3, and the IDX and KEYLEN reads that end P1. -/
theorem test_reads :
    seen (step (machine { keyed with ERR := 0x02 } [readEvent 0x04#6])) (·.replies) =
      some [{ off := 0x04, data := 0x00000006 }] ∧
    { keyed with i := 9, j := 222 }.regRead 0x14#6 = 0x0000DE09#32 ∧
    keyed.regRead 0x0C#6 = 0x00000003#32 := by decide

/-- V-ERR-4: "If the latched command was SCHED with KEYLEN = 0, ERR ends at 0x11". -/
theorem test_overrun_then_failure :
    seen (runSteps 2 (machine (latched fresh 0x00000300) [writeEvent 0x00#6 0x00000300, .engine]))
      (·.eng.ERR) = some 0x11 := by decide

/-- Rule R53. -/
theorem test_sub_word_access_faults :
    stop (step (machine keyed [.host { Access.readAt 0x10#6 with width := .bits8 }])) =
      some (.badAccess { Access.readAt 0x10#6 with width := .bits8 }) := by decide

theorem test_fetch_word : seen (step ((machine keyed []).withFetchWord 32 0x000005FF))
    (fun t => (t.eng.DOUT, t.eng.BUSY)) = some (0x93, false) := by decide +kernel

/-! ## The assembler's text (rules R87 to R89) -/

theorem test_parse_operands :
    parseLine "kload 0x4B".toList = some (.kload 75) ∧ parseLine "KLoad 75".toList = some (.kload 75) ∧
    parseLine "kload 'K' ; the key".toList = some (.kload 75) ∧
    parseLine "  rd DOUT".toList = some (.rd .dout) ∧ parseLine "; only this".toList = some .blank ∧
    parseLine "kload".toList = none ∧ parseLine "kload 0x4G".toList = none := by decide

theorem test_setkey_string :
    parseLine "setkey \"Key\"".toList = some (.setkey [0x4B, 0x65, 0x79]) ∧
    parseLine "setkey 0x4B, 101,'y'".toList = some (.setkey [0x4B, 0x65, 0x79]) ∧
    (assemble (.setkey [0x4B, 0x65, 0x79])).map (List.filterMap HostAction.word) =
      some [0x00000100, 0x0000024B, 0x00000265, 0x00000279] := by decide

/-! ## Witnesses: states and operands that meet every hypothesis of a statement together -/

theorem witness_DecodeFollowsTheOpcodeTable :
    ∃ r ∈ opTable, 0x000002FF#32 &&& r.mask = r.pattern ∧ r.mnemonic = "KLOAD" :=
  ⟨{ mnemonic := "KLOAD", pattern := 0x00000200#32, mask := 0xFFFFFF00#32 }, by decide⟩

/-- Each of the three kinds of illegal word, at the edges of its range. -/
theorem witness_IllegalWordsOnlySetIll :
    [0x00010000, 0xFFFF0000, 0x00000600, 0x0000FFFF, 0x00000001, 0x000001FF, 0x00000301].all
      (fun w : Word =>
        (machine (latched keyed w) [.engine]).eng.BUSY && (decode w).toOption.isNone) = true ∧
    decode 0x00010000#32 = .error .reservedBits ∧
    decode 0x00000600#32 = .error .reservedOpcode ∧ decode 0x00000001#32 = .error .strayData :=
  ⟨by decide, rfl, rfl, rfl⟩

theorem witness_StepRunsTheDecodedCommand :
    (machine (latched keyed 0x00000450) [.engine]).script = .engine :: [] ∧
    (machine (latched keyed 0x00000450) []).script = [] ∧
    (latched keyed 0x00000450).BUSY = true ∧
    decode (latched keyed 0x00000450).PEND = .ok (.proc 0x50) := ⟨rfl, rfl, rfl, rfl⟩

theorem witness_FetchedWordRunsNext : decodeTableWord 32 0x00000450 = some (.proc 0x50) := rfl

theorem witness_CmdWriteLatchesOrOverruns :
    (machine keyed [writeEvent 0x00#6 0xFFFFFFFF]).script = writeEvent 0x00#6 0xFFFFFFFF :: [] ∧
    keyed.BUSY = false ∧ (latched keyed 0x00000450).BUSY = true := ⟨rfl, rfl, rfl⟩

theorem witness_IdleEngineChangesNothing :
    keyed.BUSY = false ∧ (machine keyed [.engine]).script = .engine :: [] ∧
    (machine keyed []).script = [] := ⟨rfl, rfl, rfl⟩

/-- The four ways to fail, and a command that succeeds. -/
theorem witness_FailingCommandsSetOneFlagOnly :
    decode (latched keyed 0x00000600).PEND = .error .reservedOpcode ∧
    (decode (latched fresh 0x00000300).PEND = .ok .sched ∧ fresh.KEYLEN.toNat = 0) ∧
    (decode (latched full 0x000002FF).PEND = .ok (.kload 0xFF) ∧ full.KEYLEN.toNat = 256) ∧
    (decode (latched loaded 0x00000400).PEND = .ok (.proc 0x00) ∧ loaded.KEYED = false) ∧
    (decode (latched loaded 0x000005FF).PEND = .ok (.peek 0xFF)) ∧
    (decode (latched keyed 0x00000300).PEND = .ok .sched ∧ keyed.KEYLEN.toNat ≠ 0) ∧
    (latched keyed 0x00000300).BUSY = true :=
  ⟨rfl, ⟨rfl, rfl⟩, ⟨rfl, rfl⟩, ⟨rfl, rfl⟩, rfl, ⟨rfl, by decide⟩, rfl⟩

/-- A set flag, a write to ERR that clears it, and a reset. -/
theorem witness_FlagsAreSticky :
    ∃ t, step (machine { keyed with ERR := 0x1F } [writeEvent 0x08#6 0x10]) = .next t ∧
      { keyed with ERR := 0x1F }.errSet .ovr = true ∧ t.eng.errSet .ovr = false ∧
      t.eng.errSet .key = true := ⟨_, rfl, rfl, rfl, rfl⟩

/-- A write that clears every flag, and then each way a latched command can fail. -/
theorem witness_ErrWriteClearsTheWrittenFlags :
    (machine (latched { fresh with ERR := 0x1F } 0x00000600)
        [writeEvent 0x08#6 0x1F, .engine]).script = writeEvent 0x08#6 0x1F :: .engine :: [] ∧
    decode (latched fresh 0x00000600).PEND = .error .reservedOpcode ∧
    (decode (latched fresh 0x00000300).PEND = .ok .sched ∧ fresh.KEYLEN.toNat = 0) ∧
    (decode (latched full 0x00000200).PEND = .ok (.kload 0x00) ∧ full.KEYLEN.toNat = 256) ∧
    (decode (latched loaded 0x00000450).PEND = .ok (.proc 0x50) ∧ loaded.KEYED = false) ∧
    decode (latched loaded 0x000005FF).PEND = .ok (.peek 0xFF) ∧
    (latched loaded 0x000005FF).BUSY = true :=
  ⟨rfl, rfl, ⟨rfl, rfl⟩, ⟨rfl, rfl⟩, ⟨rfl, rfl⟩, rfl, rfl⟩

theorem witness_CommandsChangeOnlyTheirFields :
    Instr.nop ≠ .sched ∧ (∀ d, Instr.nop ≠ .proc d) ∧ (∀ d, Instr.nop ≠ .kload d) ∧
    Instr.nop ≠ .kclr ∧ ∀ d, Instr.nop ≠ .peek d :=
  ⟨nofun, nofun, nofun, nofun, nofun⟩

theorem witness_NopChangesNothing :
    [0x00000001, 0x000000FF].all (fun w : Word => w.toNat / 2 ^ 8 == 0 && w.toNat % 2 ^ 8 != 0) =
      true := by decide

theorem witness_KclrEmptiesTheKey :
    [0x00000101, 0x000001FF].all (fun w : Word => w.toNat / 2 ^ 8 == 1 && w.toNat % 2 ^ 8 != 0) =
      true := by decide

/-- An empty key, room for one byte, and no room. -/
theorem witness_KloadAppendsOneByte :
    fresh.KEYLEN.toNat = 0 ∧ ({ full with KEYLEN := 255#9 } : Rc4Eng).KEYLEN.toNat = 255 ∧
    full.KEYLEN.toNat = 256 := ⟨rfl, rfl, rfl⟩

theorem witness_KloadsFillTheKeyInOrder :
    ([] : List Byte).length ≤ 256 ∧ (List.replicate 256 (0xFF : Byte)).length ≤ 256 :=
  ⟨Nat.zero_le _, List.length_replicate.le⟩

theorem witness_SchedRejectsTheEmptyKey : (machine fresh []).eng.KEYLEN.toNat = 0 := rfl

/-- Also of `ProcComputesTheSourceKeystream`: the shortest and the longest key. -/
theorem witness_SchedComputesTheSourceSchedule :
    zeroKey.KEYLEN.toNat = 1 ∧ full.KEYLEN.toNat = 256 := ⟨rfl, rfl⟩

theorem witness_ProcComputesTheSourceKeystream :
    1 ≤ zeroKey.KEYLEN.toNat ∧ full.KEYLEN.toNat ≤ 256 := by decide

theorem witness_PeeksAfterSchedAreAPermutation :
    loaded.KEYLEN.toNat ≠ 0 ∧ ∀ t, exec .sched (machine loaded []) = .next t →
      ∃ u, exec (.peek 0x00) t = .next u ∧ u.eng.DOUT = u.eng.DOUT :=
  ⟨by decide, fun t _ => (exec_completes (.peek 0x00) t).elim fun _ h => ⟨_, h, rfl⟩⟩

/-- The one-byte key 0x00 and the 256-byte key of zeros (rule R128's corner case). -/
theorem witness_ScheduleDependsOnTheKeyAlone :
    zeroKey.KEYLEN.toNat ≠ 0 ∧ full.KEYLEN.toNat ≠ 0 ∧ zeroKey ≠ full ∧ ∀ n : Nat,
      readEntry zeroKey.K (BitVec.ofNat 8 (n % zeroKey.KEYLEN.toNat)) =
        readEntry full.K (BitVec.ofNat 8 (n % full.KEYLEN.toNat)) :=
  ⟨by decide, by decide, fun h => absurd (congrArg Rc4Eng.KEYLEN h) (by decide),
    fun n => by simp [readEntry, zeroKey, full]⟩

theorem witness_KeyCounterEqualsTheRemainder :
    1 ≤ (1#9).toNat ∧ (1#9).toNat ≤ 256 ∧ 1 ≤ (256#9).toNat ∧ (256#9).toNat ≤ 256 ∧ 256 ≤ 256 := by
  decide

theorem witness_LongKeysScheduleAsTheSource : 256 < (List.replicate 257 (0x00 : Byte)).length :=
  List.length_replicate.symm ▸ Nat.lt_succ_self 256

theorem witness_RekeyRestoresTheSchedule :
    loaded.KEYLEN.toNat ≠ 0 ∧
    ∀ c ∈ [Instr.proc 0x50, .nop, .peek 0x01, .sched], c ≠ .kclr ∧ ∀ d, c ≠ .kload d := by
  refine ⟨by decide, fun c hc => ?_⟩
  simp only [List.mem_cons, List.not_mem_nil, or_false] at hc
  rcases hc with rfl | rfl | rfl | rfl <;> exact ⟨nofun, nofun⟩

theorem witness_SwapExchangesAndKeepsBijections :
    IsBijection identityBuf ∧ (0x01 : Byte) ≠ 0x4B ∧ (0x02 : Byte) ≠ 0x01 :=
  ⟨identityBuf_bijection, by decide, by decide⟩

theorem witness_ProcTakesOnePrgaStep : loaded.KEYED = false ∧ keyed.KEYED = true := ⟨rfl, rfl⟩

theorem witness_PeekReadsOneEntry :
    (machine loaded []).eng.KEYED = false ∧ (machine keyed []).eng.KEYED = true := ⟨rfl, rfl⟩

/-- V-PRGA-4's indices. -/
theorem witness_ProcSelfSwapKeepsTheSbox :
    ({ keyed with S := writeEntry identityBuf 22 204, i := 21, j := 74 } : Rc4Eng).KEYED = true ∧
    (74 : Byte) + readEntry (writeEntry identityBuf 22 204) (21 + 1#8) = 21 + 1#8 :=
  ⟨rfl, by decide +kernel⟩

theorem witness_ProcDependsOnStreamAndInputAlone :
    keyed.KEYED = true ∧ { keyed with DOUT := 0xFF, ERR := 0x1F }.KEYED = true ∧
    keyed.S = { keyed with DOUT := 0xFF, ERR := 0x1F }.S := ⟨rfl, rfl, rfl⟩

theorem witness_ProcYieldsOneByteEach : keyed.KEYED = true ∧ ([] : List Byte) = [] := ⟨rfl, rfl⟩

/-- Also of `DecryptingRestoresTheMessage`. -/
theorem witness_IndexCountsProcsModulo256 :
    (machine zeroKey []).eng.KEYLEN.toNat ≠ 0 ∧ (List.replicate 256 (0x00 : Byte)).length % 256 = 0 :=
  ⟨by decide, List.length_replicate.symm ▸ Nat.mod_self 256⟩

theorem witness_DecryptingRestoresTheMessage : (machine loaded []).eng.KEYLEN.toNat ≠ 0 := by decide

theorem witness_ResetLeavesTheStatedValues :
    (machine (latched keyed 0x00000300) [.reset keySbox keySbox 0x00000450, .engine]).script =
      .reset keySbox keySbox 0x00000450 :: .engine :: [] := rfl

/-- Keyed, with a bijective S-box and a PROC latched. -/
theorem witness_StepsKeepTheInvariant :
    (machine (latched { keyed with S := identityBuf } 0x00000450) []).eng.Inv ∧
    ∃ t, step (machine (latched { keyed with S := identityBuf } 0x00000450) []) = .next t :=
  ⟨⟨by decide, fun _ => identityBuf_bijection, fun _ => by decide⟩, _, rfl⟩

/-- An engine with a key scheduled and one PROC done. -/
def afterOneProc (e : Rc4Eng) : Rc4Eng :=
  { e with
    S := e.scheduled.next.S, i := e.scheduled.next.i, j := e.scheduled.next.j, KEYED := true }

theorem afterOneProc_keyedMeansScheduled (e : Rc4Eng) : (afterOneProc e).KeyedMeansScheduled := by
  intro _
  have h : (afterOneProc e).scheduled = e.scheduled := by simp only [Rc4Eng.scheduled, afterOneProc]
  refine ⟨1, ?_⟩
  rw [h, Function.iterate_one]
  simp only [Rc4Eng.prga, afterOneProc]

theorem witness_StepsKeepKeyedMeaningScheduled :
    (machine (afterOneProc zeroKey) []).eng.KeyedMeansScheduled ∧
    (afterOneProc zeroKey).KEYED = true ∧
    ∃ t, step (machine (afterOneProc zeroKey) [.engine]) = .next t :=
  ⟨afterOneProc_keyedMeansScheduled zeroKey, rfl, _, rfl⟩

/-- Two draws of the reset contents look alike to a host. -/
theorem sameToHost_reset (S K S' K' : Buf) (PEND PEND' : Word) :
    SameToHost (Rc4Eng.reset S K PEND) (Rc4Eng.reset S' K' PEND') where
  keylen := rfl
  i := rfl
  j := rfl
  dout := rfl
  keyed := rfl
  busy := rfl
  err := rfl
  sbox := nofun
  key := fun _ h => absurd h (Nat.not_lt_zero _)
  pend := nofun

/-- Different S-boxes, keys and latches that no host can tell apart. -/
theorem witness_UnspecifiedContentsAreUnobservable :
    SameToHost (Rc4Eng.reset identityBuf identityBuf 0x00000001) fresh ∧
    (Rc4Eng.reset identityBuf identityBuf 0x00000001).PEND ≠ fresh.PEND :=
  ⟨sameToHost_reset _ _ _ _ _ _, by decide⟩

/-- Every word slot of the window. -/
theorem witness_ReadsReturnTheRegisterMap :
    [0x00, 0x04, 0x08, 0x0C, 0x10, 0x14, 0x18, 0x3C].all
      (fun o : Offset => o.toNat % 4 == 0 && (Access.readAt o).ok) = true ∧
    (machine keyed [readEvent 0x3C#6]).script = readEvent 0x3C#6 :: [] ∧ 0x18 ≤ (0x3C#6).toNat :=
  ⟨by decide, rfl, by decide⟩

theorem witness_ReadsAreIdempotentWhilePending :
    (∀ o ∈ [0x10#6, 0x04#6, 0x10#6], o.toNat % 4 = 0) ∧
    (machine (latched keyed 0x00000450) [readEvent 0x10#6, readEvent 0x04#6, readEvent 0x10#6]).script =
      [0x10#6, 0x04#6, 0x10#6].map readEvent ++ [] := ⟨by decide, rfl⟩

theorem witness_OtherWritesAreIgnored :
    [0x04, 0x0C, 0x10, 0x14, 0x18, 0x3C].all
      (fun o : Offset => o.toNat % 4 == 0 && o != 0x00 && o != 0x08) = true ∧
    (machine keyed [writeEvent 0x3C#6 0xFFFFFFFF]).script = writeEvent 0x3C#6 0xFFFFFFFF :: [] :=
  ⟨by decide, rfl⟩

theorem witness_HostAccessesLeaveTheCipherAlone :
    (machine keyed [writeEvent 0x00#6 0x00000300]).script =
      .host (.writeAt 0x00#6 0x00000300) :: [] ∧
    ∃ t, step (machine keyed [writeEvent 0x00#6 0x00000300]) = .next t := ⟨rfl, _, rfl⟩

/-- A narrow, a wide, a partially enabled and two misaligned accesses. -/
theorem witness_BadAccessesAreHostFaults :
    [{ Access.readAt 0x10#6 with width := .bits16 }, { Access.readAt 0x10#6 with width := .bits64 },
      { Access.readAt 0x10#6 with enables := 0b0111#4 }, Access.readAt 0x01#6,
      Access.writeAt 0x3F#6 0xFF].all (fun a =>
        decide (a.width ≠ .bits32 ∨ a.enables ≠ 0b1111#4 ∨ a.off.toNat % 4 ≠ 0)) = true := by decide

theorem witness_CleanScriptsNeverStop :
    (machine keyed [writeEvent 0x00#6 0x00000450, .engine, readEvent 0x10#6,
      .reset keySbox keySbox 0]).Safe := by
  intro ev hev
  simp only [machine, List.mem_cons, List.not_mem_nil, or_false] at hev
  rcases hev with rfl | rfl | rfl | rfl <;> rfl

/-- V-CYC-1, with a poll that finds the engine busy. -/
theorem witness_CompletionMakesEffectsVisible :
    keyed.BUSY = false ∧ (∀ o ∈ [0x10#6, 0x14#6], o.toNat % 4 = 0) ∧
    (machine keyed (commandEvents 0x00000450 1 ++ ([0x10#6, 0x14#6].map readEvent ++ []))).script =
      commandEvents 0x00000450 1 ++ ([0x10#6, 0x14#6].map readEvent ++ []) :=
  ⟨rfl, by decide, rfl⟩

/-- P7's two orders. -/
theorem witness_OverrunAdmitsBothOutcomes :
    keyed.BUSY = false ∧
    (machine keyed [writeEvent 0x00#6 0x00000450, .engine, writeEvent 0x00#6 0x0000046C,
      .engine]).script =
      writeEvent 0x00#6 0x00000450 :: .engine :: writeEvent 0x00#6 0x0000046C :: .engine :: [] ∧
    (machine keyed [writeEvent 0x00#6 0x00000450, writeEvent 0x00#6 0x0000046C, .engine]).script =
      writeEvent 0x00#6 0x00000450 :: writeEvent 0x00#6 0x0000046C :: .engine :: [] :=
  ⟨rfl, rfl, rfl⟩

/-- Two reads and an overrun before the engine's turn, and no reset. -/
theorem witness_LatchedCommandsAreExecuted :
    let script := [readEvent 0x04#6, writeEvent 0x00#6 0x0000046C, readEvent 0x08#6, .engine]
    (machine (latched keyed 0x00000450) script).Safe ∧ (latched keyed 0x00000450).BUSY = true ∧
    ∀ S K PEND, Event.reset S K PEND ∉ script := by
  refine ⟨fun ev hev => ?_, rfl, fun S K PEND h => ?_⟩
  · simp only [machine, List.mem_cons, List.not_mem_nil, or_false] at hev
    rcases hev with rfl | rfl | rfl | rfl <;> rfl
  · simp [readEvent, writeEvent] at h

/-- P1, with one poll before the first engine step, from reset, and the shortest and the longest key. -/
theorem witness_SessionsComputeRc4 :
    (∀ key ∈ [[0x4B, 0x65, 0x79], [0x00], List.replicate 256 (0xFF : Byte)],
      1 ≤ key.length ∧ key.length ≤ 256) ∧
    fresh.BUSY = false ∧ fresh.ERR = 0b00000#5 ∧
    ∀ key : List Byte, (machine fresh (sessionScript key [0x50] [1])).script =
      sessionScript key [0x50] [1] := by
  refine ⟨fun key h => ?_, rfl, rfl, fun _ => rfl⟩
  simp only [List.mem_cons, List.not_mem_nil, or_false] at h
  rcases h with rfl | rfl | rfl
  · decide
  · decide
  · rw [List.length_replicate]; decide

/-- V-SRC-4. -/
theorem witness_SessionsWithoutAKeyFail :
    fresh.BUSY = false ∧ fresh.ERR = 0b00000#5 ∧
    (machine fresh (sessionScript [] [0x50] [])).script = sessionScript [] [0x50] [] :=
  ⟨rfl, rfl, rfl⟩

theorem witness_InstancesDoNotInteract :
    ∃ qs, stepInstance [{ block := 0, machine := machine (latched keyed 0x00000450) [] },
      { block := 1, machine := machine fresh [] }] 0 = some qs := ⟨_, rfl⟩

theorem witness_AssemblerEmitsOnlyCommands :
    (∃ acts, assemble (.setkey [0xFF]) = some acts ∧ HostAction.command (.kload 0xFF) ∈ acts ∧
      (HostAction.command (.kload 0xFF)).word = some 0x000002FF#32) ∧
    256 ∈ [0x4B, 256] ∧ 256 ≤ 256 :=
  ⟨⟨[.command .kclr, .command (.kload 0xFF)], rfl, by simp, rfl⟩, by decide, by decide⟩

theorem witness_PseudoInstructionsExpand :
    (machine { keyed with ERR := 0x1F } (HostAction.events 0 (.clearErr 0x1F#32) ++ [])).script =
      HostAction.events 0 (.clearErr 0x1F#32) ++ [] ∧
    keyed.KEYED = true ∧
    1 ≤ ([0x4B] : List Byte).length ∧ ([0x4B] : List Byte).length ≤ 256 :=
  ⟨rfl, rfl, by decide, by decide⟩

end Sys2Proof.Tests
end

namespace Sys2Proof.Machine

/-! ## What a command, the latch and a step do to the engine

`CommandEffect` says once, as a relation, what each command leaves of the engine in each of its two cases;
`exec_of_effect` and `exists_effect` tie it to `exec`. `withLatch` is everything the port and the command
cycle may do beside a command or a reset. `step_eng_cases` puts them together. -/

/-- What a command leaves of the engine: one constructor for each branch of its `exec_` rule (rules R110,
R120, R122, R128, R141, R150; a failing branch as rule R106). -/
inductive CommandEffect (e : Rc4Eng) : Instr → Rc4Eng → Prop
  | nop : CommandEffect e .nop e
  | kclr : CommandEffect e .kclr { e with KEYLEN := 0#9, KEYED := false }
  | kloadFull {d} (h : e.KEYLEN = 256#9) : CommandEffect e (.kload d) (e.setErr .klen)
  | kloadRoom {d} (h : e.KEYLEN ≠ 256#9) : CommandEffect e (.kload d) { e with
      K := writeEntry e.K (keyWriteIndex e.KEYLEN) d
      KEYLEN := e.KEYLEN + 1#9
      KEYED := false }
  | schedEmpty (h : e.KEYLEN = 0#9) : CommandEffect e .sched (e.setErr .key)
  | schedKey (h : e.KEYLEN ≠ 0#9) : CommandEffect e .sched { e with
      S := (ksa e.K e.KEYLEN).S, i := 0#8, j := 0#8, KEYED := true }
  | procUnkeyed {d} (h : e.KEYED = false) : CommandEffect e (.proc d) (e.setErr .seq)
  | procKeyed {d} (h : e.KEYED = true) : CommandEffect e (.proc d) { e with
      S := e.prga.next.S, i := e.prga.next.i, j := e.prga.next.j
      DOUT := d ^^^ e.prga.next.keystream }
  | peekUnkeyed {d} (h : e.KEYED = false) : CommandEffect e (.peek d) (e.setErr .seq)
  | peekKeyed {d} (h : e.KEYED = true) : CommandEffect e (.peek d) { e with DOUT := readEntry e.S d }

theorem exec_of_effect {c : Instr} {s : State} {e : Rc4Eng} (h : CommandEffect s.eng c e) :
    exec c s = .next (s.withEng e) := by
  cases h with
  | nop => rfl
  | kclr => rfl
  | kloadFull h => exact exec_kload_full _ s h
  | kloadRoom h => exact exec_kload_room _ s h
  | schedEmpty h => exact exec_sched_empty s h
  | schedKey h => exact exec_sched_key s h
  | procUnkeyed h => exact exec_proc_unkeyed _ s h
  | procKeyed h => exact exec_proc_keyed _ s h
  | peekUnkeyed h => exact exec_peek_unkeyed _ s h
  | peekKeyed h => exact exec_peek_keyed _ s h

theorem exists_effect (c : Instr) (e : Rc4Eng) : ∃ e', CommandEffect e c e' := by
  cases c with
  | nop => exact ⟨_, .nop⟩
  | kclr => exact ⟨_, .kclr⟩
  | kload d =>
    by_cases h : e.KEYLEN = 256#9
    · exact ⟨_, .kloadFull h⟩
    · exact ⟨_, .kloadRoom h⟩
  | sched =>
    by_cases h : e.KEYLEN = 0#9
    · exact ⟨_, .schedEmpty h⟩
    · exact ⟨_, .schedKey h⟩
  | proc d =>
    cases h : e.KEYED with
    | false => exact ⟨_, .procUnkeyed h⟩
    | true => exact ⟨_, .procKeyed h⟩
  | peek d =>
    cases h : e.KEYED with
    | false => exact ⟨_, .peekUnkeyed h⟩
    | true => exact ⟨_, .peekKeyed h⟩

/-- The engine step in terms of the latched command's effect: its results and `BUSY ← 0` (rule R104). -/
theorem engineStep_of_effect {c : Instr} {s : State} {e : Rc4Eng} (hd : decode s.eng.PEND = .ok c)
    (h : CommandEffect s.eng c e) : engineStep s = .next (s.withEng { e with BUSY := false }) := by
  simp [engineStep, hd, exec_of_effect h]

/-- The engine step of an illegal word: ERR.ILL and `BUSY ← 0` (rules R103, R104). -/
theorem engineStep_of_illegal {why : Illegal} {s : State} (hd : decode s.eng.PEND = .error why) :
    engineStep s = .next (s.withEng { s.eng.setErr .ill with BUSY := false }) := by
  simp [engineStep, hd]

/-- The engine with other values in the three fields that the port and the command cycle write: the latch
and the error flags (rules R28, R29). -/
def Rc4Eng.withLatch (e : Rc4Eng) (BUSY : Bool) (PEND : Word) (ERR : BitVec 5) : Rc4Eng :=
  { e with BUSY := BUSY, PEND := PEND, ERR := ERR }

theorem Rc4Eng.setErr_eq_withLatch (e : Rc4Eng) (f : ErrFlag) :
    e.setErr f = e.withLatch e.BUSY e.PEND (e.ERR ||| f.bit) := rfl

/-- A RegWrite reaches the latch and the error flags only (rule R52). -/
theorem Rc4Eng.regWrite_eq_withLatch (e : Rc4Eng) (off : Offset) (v : Word) :
    ∃ b p r, e.regWrite off v = e.withLatch b p r := by
  obtain ⟨-, -, h⟩ | ⟨-, -, h⟩ | ⟨-, h⟩ | ⟨-, -, h⟩ := regWrite_cases e off v
  · exact ⟨true, v, e.ERR, h⟩
  · exact ⟨e.BUSY, e.PEND, _, h⟩
  · exact ⟨e.BUSY, e.PEND, _, h⟩
  · exact ⟨e.BUSY, e.PEND, e.ERR, h⟩

/-- A host access reaches the latch and the error flags only (rules R52, R58). -/
theorem hostAccess_eng {a : Access} {s t : State} (h : hostAccess a s = .next t) :
    ∃ b p r, t.eng = s.eng.withLatch b p r := by
  obtain ⟨-, -, hr⟩ | ⟨-, v, -, hw⟩ | ⟨-, hf⟩ := hostAccess_cases a s
  · cases hr.symm.trans h
    exact ⟨s.eng.BUSY, s.eng.PEND, s.eng.ERR, rfl⟩
  · cases hw.symm.trans h
    exact s.eng.regWrite_eq_withLatch a.off v
  · cases hf.symm.trans h

/-- The engine's turn leaves an idle engine alone; otherwise it is the latched command's effect, or
ERR.ILL, with BUSY cleared (rules R102 to R104). -/
theorem engineTurn_eng {s t : State} (h : engineTurn s = .next t) :
    (∃ b p r, t.eng = s.eng.withLatch b p r) ∨
    ∃ c e, CommandEffect s.eng c e ∧ t.eng = e.withLatch false e.PEND e.ERR := by
  unfold engineTurn at h
  split at h
  · cases hd : decode s.eng.PEND with
    | ok c =>
      obtain ⟨e, he⟩ := exists_effect c s.eng
      cases (engineStep_of_effect hd he).symm.trans h
      exact .inr ⟨c, e, he, rfl⟩
    | error why =>
      cases (engineStep_of_illegal hd).symm.trans h
      exact .inl ⟨false, s.eng.PEND, _, rfl⟩
  · cases h
    exact .inl ⟨s.eng.BUSY, s.eng.PEND, s.eng.ERR, rfl⟩

/-- All that a step can do to the engine: write the latch and the flags, execute a command and clear BUSY,
or reset (rule R61). -/
theorem step_eng_cases {s t : State} (h : step s = .next t) :
    (∃ b p r, t.eng = s.eng.withLatch b p r) ∨
    (∃ c e, CommandEffect s.eng c e ∧ t.eng = e.withLatch false e.PEND e.ERR) ∨
    ∃ S K PEND, t.eng = Rc4Eng.reset S K PEND := by
  cases hs : s.script with
  | nil =>
    rw [step_nil hs] at h
    exact (engineTurn_eng h).imp_right .inl
  | cons ev rest =>
    rw [step_cons hs] at h
    cases ev with
    | host a => exact .inl (hostAccess_eng (s := { s with script := rest }) h)
    | engine => exact (engineTurn_eng (s := { s with script := rest }) h).imp_right .inl
    | reset S K PEND => cases h; exact .inr (.inr ⟨S, K, PEND, rfl⟩)

/-- A property of the engine that holds after every reset and that neither the latch and the flags nor a
command can break: what a step invariant takes to prove. -/
structure StepInvariant (P : Rc4Eng → Prop) : Prop where
  reset : ∀ S K PEND, P (Rc4Eng.reset S K PEND)
  withLatch : ∀ {e}, P e → ∀ b p r, P (e.withLatch b p r)
  effect : ∀ {e c e'}, P e → CommandEffect e c e' → P e'

theorem StepInvariant.step {P : Rc4Eng → Prop} (hP : StepInvariant P) {s t : State} (hs : P s.eng)
    (h : step s = .next t) : P t.eng := by
  obtain ⟨b, p, r, ht⟩ | ⟨c, e, he, ht⟩ | ⟨S, K, PEND, ht⟩ := step_eng_cases h <;> rw [ht]
  · exact hP.withLatch hs b p r
  · exact hP.withLatch (hP.effect hs he) _ _ _
  · exact hP.reset S K PEND

/-! ## Swaps, PRGA steps and the key schedule keep the S-box a bijection -/

theorem isBijection_iff (B : Buf) : IsBijection B ↔ Function.Bijective (readEntry B) := Iff.rfl

/-- Reading after a swap is reading at the transposed index (rule R130). -/
theorem readEntry_swapEntries_eq_swap (B : Buf) (a b c : Byte) :
    readEntry (swapEntries B a b) c = readEntry B (Equiv.swap a b c) := by
  rw [readEntry_swapEntries, Equiv.swap_apply_def, apply_ite (readEntry B), apply_ite (readEntry B)]

theorem swapEntries_bijection {B : Buf} (h : IsBijection B) (a b : Byte) :
    IsBijection (swapEntries B a b) := by
  have hcomp : readEntry (swapEntries B a b) = readEntry B ∘ Equiv.swap a b :=
    funext (readEntry_swapEntries_eq_swap B a b)
  rw [isBijection_iff, hcomp]
  exact ((isBijection_iff B).mp h).comp (Equiv.swap a b).bijective

theorem Prga.next_bijection {p : Prga} (h : IsBijection p.S) : IsBijection p.next.S :=
  swapEntries_bijection h _ _

/-- The schedule of any key is a bijection: it starts from the identity and swaps (rule R128). -/
theorem ksa_bijection (K : Buf) (KEYLEN : BitVec 9) : IsBijection (ksa K KEYLEN).S :=
  List.foldlRecOn (motive := fun p : Ksa => IsBijection p.S) (List.range 256) _
    identityBuf_bijection fun _ h _ _ => swapEntries_bijection h _ _

/-! ## The invariants of rules R34 and R27 -/

/-- KLOAD with room leaves KEYLEN at most 256 (rules R23, R122). -/
theorem keylen_succ_le {k : BitVec 9} (hle : k.toNat ≤ 256) (hne : k ≠ 256#9) :
    (k + 1#9).toNat ≤ 256 := by
  rw [Ne, keylen_eq_full_iff] at hne
  rw [BitVec.toNat_add_of_lt] <;> simp <;> omega

theorem Rc4Eng.Inv.withLatch {e : Rc4Eng} (h : e.Inv) (b : Bool) (p : Word) (r : BitVec 5) :
    (e.withLatch b p r).Inv :=
  ⟨h.keylen_le, h.bijective, h.has_key⟩

theorem Rc4Eng.Inv.effect {e e' : Rc4Eng} {c : Instr} (h : e.Inv) (he : CommandEffect e c e') :
    e'.Inv := by
  cases he with
  | nop => exact h
  | kclr => exact ⟨Nat.zero_le _, nofun, nofun⟩
  | kloadRoom hk => exact ⟨keylen_succ_le h.keylen_le hk, nofun, nofun⟩
  | schedKey hk =>
    have hpos : 1 ≤ e.KEYLEN.toNat := Nat.one_le_iff_ne_zero.mpr (mt (keylen_eq_zero_iff _).mpr hk)
    exact ⟨h.keylen_le, fun _ => ksa_bijection e.K e.KEYLEN, fun _ => hpos⟩
  | procKeyed hk => exact ⟨h.keylen_le, fun _ => Prga.next_bijection (h.bijective hk), h.has_key⟩
  | peekKeyed _ => exact ⟨h.keylen_le, h.bijective, h.has_key⟩
  | kloadFull _ | schedEmpty _ | procUnkeyed _ | peekUnkeyed _ => exact h.withLatch _ _ _

theorem inv_reset (S K : Buf) (PEND : Word) : (Rc4Eng.reset S K PEND).Inv :=
  ⟨Nat.zero_le _, nofun, nofun⟩

theorem stepInvariant_inv : StepInvariant Rc4Eng.Inv where
  reset := inv_reset
  withLatch h := h.withLatch
  effect h := h.effect

theorem Rc4Eng.KeyedMeansScheduled.effect {e e' : Rc4Eng} {c : Instr} (h : e.KeyedMeansScheduled)
    (he : CommandEffect e c e') : e'.KeyedMeansScheduled := by
  cases he with
  | kclr | kloadRoom _ => exact nofun
  | schedKey _ => exact fun _ => ⟨0, rfl⟩
  | procKeyed hk =>
    obtain ⟨m, hm⟩ := h hk
    have hnext : e.prga.next = Prga.next^[m + 1] e.scheduled := by
      rw [Function.iterate_succ_apply', ← hm]
    exact fun _ => ⟨m + 1, hnext⟩
  | nop | peekKeyed _ | kloadFull _ | schedEmpty _ | procUnkeyed _ | peekUnkeyed _ => exact h

theorem keyedMeansScheduled_reset (S K : Buf) (PEND : Word) :
    (Rc4Eng.reset S K PEND).KeyedMeansScheduled := nofun

theorem stepInvariant_keyedMeansScheduled : StepInvariant Rc4Eng.KeyedMeansScheduled where
  reset := keyedMeansScheduled_reset
  withLatch h _ _ _ := h
  effect h := h.effect

/-! ## The register map -/

theorem errAny_iff (e : Rc4Eng) : e.errAny = true ↔ ∃ f, e.errSet f = true := by
  simp only [Rc4Eng.errAny, Bool.or_eq_true]
  constructor
  · rintro ((((h | h) | h) | h) | h)
    · exact ⟨.key, h⟩
    · exact ⟨.klen, h⟩
    · exact ⟨.seq, h⟩
    · exact ⟨.ill, h⟩
    · exact ⟨.ovr, h⟩
  · rintro ⟨f, h⟩
    cases f <;> simp_all [Rc4Eng.errSet, ErrFlag.code]

theorem toNat_zero_append (n : Nat) {m : Nat} (x : BitVec m) : (0#n ++ x).toNat = x.toNat := by
  rw [BitVec.toNat_append]; simp

theorem status_toNat_lt (e : Rc4Eng) : e.status.toNat < 8 := by
  rw [Rc4Eng.status, toNat_zero_append]
  exact BitVec.isLt _

theorem status_getLsbD_zero (e : Rc4Eng) : e.status.getLsbD 0 = e.BUSY := by
  simp only [Rc4Eng.status, BitVec.getLsbD_append]
  simp

theorem status_getLsbD_one (e : Rc4Eng) : e.status.getLsbD 1 = e.KEYED := by
  simp only [Rc4Eng.status, BitVec.getLsbD_append]
  simp

theorem status_getLsbD_two (e : Rc4Eng) : e.status.getLsbD 2 = e.errAny := by
  simp only [Rc4Eng.status, BitVec.getLsbD_append]
  simp

theorem errContent_toNat_lt (e : Rc4Eng) : (e.regContent .err).toNat < 32 :=
  calc (e.regContent .err).toNat = e.ERR.toNat := BitVec.toNat_setWidth_of_le (by decide)
    _ < 32 := e.ERR.isLt

theorem errContent_getLsbD (e : Rc4Eng) (f : ErrFlag) :
    (e.regContent .err).getLsbD f.code.val = e.errSet f := by
  have hlt : f.code.val < 32 := f.code.isLt.trans (by decide)
  simp [Rc4Eng.regContent, Rc4Eng.errSet, hlt]

theorem regAt_reserved {off : Offset} (h : 0x18 ≤ off.toNat) : regAt off = .reserved := by
  unfold regAt
  split
  case h_7 => rfl
  all_goals omega

theorem idx_toNat (i j : Byte) : (0#16 ++ (j ++ i) : Word).toNat = i.toNat + 256 * j.toNat := by
  rw [toNat_zero_append, BitVec.toNat_append, ← Nat.shiftLeft_add_eq_or_of_lt i.isLt, Nat.shiftLeft_eq]
  omega

/-! ## What no host can observe -/

/-- The key byte of a schedule iteration lies in the key (rule R127). -/
theorem keyIndex_toNat_lt {KEYLEN : BitVec 9} (h : KEYLEN ≠ 0#9) (n : Nat) :
    (keyIndex KEYLEN n).toNat < KEYLEN.toNat := by
  have hpos : 0 < KEYLEN.toNat := Nat.pos_of_ne_zero (mt (keylen_eq_zero_iff _).mpr h)
  calc (keyIndex KEYLEN n).toNat = n % KEYLEN.toNat % 2 ^ 8 := BitVec.toNat_ofNat ..
    _ ≤ n % KEYLEN.toNat := Nat.mod_le _ _
    _ < KEYLEN.toNat := Nat.mod_lt _ hpos

/-- The schedule depends on the key's bytes alone (rule R133). -/
theorem ksa_congr {K K' : Buf} {KEYLEN : BitVec 9} (h : KEYLEN ≠ 0#9)
    (hK : ∀ a : Byte, a.toNat < KEYLEN.toNat → readEntry K a = readEntry K' a) :
    ksa K KEYLEN = ksa K' KEYLEN := by
  have hround : Ksa.round K KEYLEN = Ksa.round K' KEYLEN := by
    funext p n
    rw [Ksa.round, Ksa.round, hK _ (keyIndex_toNat_lt h n)]
  rw [ksa, ksa, hround]

/-- After KLOAD the buffers agree below the new KEYLEN: at the entry just written, and below the old one
(rule R122). -/
theorem readEntry_kload_congr {K K' : Buf} {KEYLEN : BitVec 9} (d : Byte)
    (hK : ∀ a : Byte, a.toNat < KEYLEN.toNat → readEntry K a = readEntry K' a)
    {a : Byte} (ha : a.toNat < (KEYLEN + 1#9).toNat) :
    readEntry (writeEntry K (keyWriteIndex KEYLEN) d) a =
      readEntry (writeEntry K' (keyWriteIndex KEYLEN) d) a := by
  rw [readEntry_writeEntry, readEntry_writeEntry]
  split
  · rfl
  · next hne =>
    apply hK
    have hidx : a.toNat ≠ KEYLEN.toNat % 256 := fun h =>
      hne (BitVec.eq_of_toNat_eq (by simpa [keyWriteIndex] using h))
    have ha8 := a.toNat_lt
    rw [BitVec.toNat_add] at ha
    simp only [BitVec.toNat_ofNat] at ha
    omega

section sameToHost
variable {e f : Rc4Eng}

/-- Two draws of the reset contents look alike (rule R33). -/
theorem sameToHost_of_reset (S K S' K' : Buf) (PEND PEND' : Word) :
    SameToHost (Rc4Eng.reset S K PEND) (Rc4Eng.reset S' K' PEND') :=
  ⟨rfl, rfl, rfl, rfl, rfl, rfl, rfl, nofun, nofun, nofun⟩

theorem SameToHost.setErr (h : SameToHost e f) (x : ErrFlag) :
    SameToHost (e.setErr x) (f.setErr x) :=
  { h with err := congrArg (· ||| x.bit) h.err }

theorem SameToHost.clearErr (h : SameToHost e f) (v : Word) :
    SameToHost (e.clearErr v) (f.clearErr v) :=
  { h with err := congrArg (· &&& ~~~(v.extractLsb' 0 5)) h.err }

theorem SameToHost.latch (h : SameToHost e f) (v : Word) :
    SameToHost { e with PEND := v, BUSY := true } { f with PEND := v, BUSY := true } :=
  { h with busy := rfl, pend := fun _ => rfl }

theorem SameToHost.idle (h : SameToHost e f) :
    SameToHost { e with BUSY := false } { f with BUSY := false } :=
  { h with busy := rfl, pend := nofun }

/-- A RegRead shows nothing that may differ (rules R36 to R42). -/
theorem SameToHost.regRead (h : SameToHost e f) (off : Offset) : e.regRead off = f.regRead off := by
  unfold Rc4Eng.regRead
  cases regAt off <;>
    simp only [Rc4Eng.regContent, Rc4Eng.status, Rc4Eng.errAny, h.err, h.keylen, h.dout, h.i, h.j,
      h.keyed, h.busy]

theorem SameToHost.writeCmd (h : SameToHost e f) (v : Word) :
    SameToHost (e.writeCmd v) (f.writeCmd v) := by
  unfold Rc4Eng.writeCmd
  rw [← h.busy]
  split
  · exact h.latch v
  · exact h.setErr .ovr

theorem SameToHost.regWrite (h : SameToHost e f) (off : Offset) (v : Word) :
    SameToHost (e.regWrite off v) (f.regWrite off v) := by
  unfold Rc4Eng.regWrite
  cases regAt off with
  | cmd => exact h.writeCmd v
  | err => exact h.clearErr v
  | status | keylen | dout | idx | reserved => exact h

/-- Look-alike engines take the same branch of every command and stay alike. -/
theorem SameToHost.effect {c : Instr} {e' : Rc4Eng} (h : SameToHost e f) (he : CommandEffect e c e') :
    ∃ f', CommandEffect f c f' ∧ SameToHost e' f' := by
  cases he with
  | nop => exact ⟨_, .nop, h⟩
  | kclr =>
    exact ⟨_, .kclr, { h with keylen := rfl, keyed := rfl, sbox := nofun, key := nofun }⟩
  | kloadFull hk => exact ⟨_, .kloadFull (h.keylen ▸ hk), h.setErr .klen⟩
  | kloadRoom hk =>
    refine ⟨_, .kloadRoom (h.keylen ▸ hk), { h with
      keylen := congrArg (· + 1#9) h.keylen, keyed := rfl, sbox := nofun, key := fun a ha => ?_ }⟩
    dsimp only
    rw [← h.keylen]
    exact readEntry_kload_congr _ h.key ha
  | schedEmpty hk => exact ⟨_, .schedEmpty (h.keylen ▸ hk), h.setErr .key⟩
  | schedKey hk =>
    have hksa : ksa e.K e.KEYLEN = ksa f.K f.KEYLEN := by rw [← h.keylen, ksa_congr hk h.key]
    exact ⟨_, .schedKey (h.keylen ▸ hk), h.keylen, rfl, rfl, h.dout, rfl, h.busy, h.err,
      fun _ => congrArg Ksa.S hksa, h.key, h.pend⟩
  | procUnkeyed hk => exact ⟨_, .procUnkeyed (h.keyed ▸ hk), h.setErr .seq⟩
  | @procKeyed d hk =>
    have hprga : e.prga = f.prga := by simp only [Rc4Eng.prga, h.sbox hk, h.i, h.j]
    exact ⟨_, .procKeyed (h.keyed ▸ hk), { h with
      i := by simp only [hprga], j := by simp only [hprga], dout := by simp only [hprga]
      sbox := fun _ => by simp only [hprga] }⟩
  | peekUnkeyed hk => exact ⟨_, .peekUnkeyed (h.keyed ▸ hk), h.setErr .seq⟩
  | @peekKeyed d hk =>
    exact ⟨_, .peekKeyed (h.keyed ▸ hk), { h with
      dout := congrArg (readEntry · d) (h.sbox hk) }⟩

end sameToHost

/-- Machines that a host cannot tell apart: look-alike engines, and the same script and replies. -/
def LookAlike (s s' : State) : Prop :=
  SameToHost s.eng s'.eng ∧ s.script = s'.script ∧ s.replies = s'.replies

/-- Outcomes that a host cannot tell apart: look-alike next states, or the same fault. -/
def SameOutcome (r r' : Result) : Prop :=
  (∃ t t', r = .next t ∧ r' = .next t' ∧ LookAlike t t') ∨ ∃ x, r = .fault x ∧ r' = .fault x

theorem SameOutcome.next {t t' : State} (h : LookAlike t t') : SameOutcome (.next t) (.next t') :=
  .inl ⟨t, t', rfl, rfl, h⟩

theorem SameOutcome.fault (x : Fault) : SameOutcome (.fault x) (.fault x) := .inr ⟨x, rfl, rfl⟩

theorem SameOutcome.andThen {r r' : Result} {g : State → Result} (h : SameOutcome r r')
    (hg : ∀ t t', LookAlike t t' → SameOutcome (g t) (g t')) :
    SameOutcome (andThen r g) (andThen r' g) := by
  obtain ⟨t, t', rfl, rfl, ht⟩ | ⟨x, rfl, rfl⟩ := h
  · exact hg t t' ht
  · exact .fault x

section lookAlike
variable {s s' : State}

theorem LookAlike.withEng (h : LookAlike s s') {e e' : Rc4Eng} (he : SameToHost e e') :
    LookAlike (s.withEng e) (s'.withEng e') :=
  ⟨he, h.2⟩

theorem LookAlike.engineStep (h : LookAlike s s') (hb : s.eng.BUSY = true) :
    SameOutcome (engineStep s) (engineStep s') := by
  have ⟨he, _, _⟩ := h
  have hpend := he.pend hb
  cases hd : decode s.eng.PEND with
  | ok c =>
    obtain ⟨e, hc⟩ := exists_effect c s.eng
    obtain ⟨e', hc', hee⟩ := he.effect hc
    rw [engineStep_of_effect hd hc, engineStep_of_effect (hpend ▸ hd) hc']
    exact .next (h.withEng hee.idle)
  | error why =>
    rw [engineStep_of_illegal hd, engineStep_of_illegal (hpend ▸ hd)]
    exact .next (h.withEng (he.setErr .ill).idle)

theorem LookAlike.engineTurn (h : LookAlike s s') : SameOutcome (engineTurn s) (engineTurn s') := by
  unfold Machine.engineTurn
  rw [← h.1.busy]
  split
  · next hb => exact h.engineStep hb
  · exact .next h

theorem LookAlike.hostAccess (h : LookAlike s s') (a : Access) :
    SameOutcome (hostAccess a s) (hostAccess a s') := by
  have ⟨he, hs, hr⟩ := h
  unfold Machine.hostAccess
  split
  · cases a.kind with
    | read => exact .next ⟨he, hs, by simp only [hr, he.regRead a.off]⟩
    | write v => exact .next (h.withEng (he.regWrite a.off v))
  · exact .fault _

theorem LookAlike.performEvent (h : LookAlike s s') (ev : Event) :
    SameOutcome (performEvent ev s) (performEvent ev s') := by
  cases ev with
  | host a => exact h.hostAccess a
  | engine => exact h.engineTurn
  | reset S K PEND => exact .next (h.withEng (sameToHost_of_reset S K S K PEND PEND))

theorem LookAlike.step (h : LookAlike s s') : SameOutcome (step s) (step s') := by
  have ⟨he, hs, hr⟩ := h
  cases hsc : s.script with
  | nil =>
    rw [step_nil hsc, step_nil (hs ▸ hsc)]
    exact h.engineTurn
  | cons ev rest =>
    rw [step_cons hsc, step_cons (hs ▸ hsc)]
    exact LookAlike.performEvent (s := { s with script := rest }) (s' := { s' with script := rest })
      ⟨he, rfl, hr⟩ ev

theorem LookAlike.runSteps (k : Nat) (h : LookAlike s s') :
    SameOutcome (runSteps k s) (runSteps k s') := by
  induction k generalizing s s' with
  | zero => exact .next h
  | succ k ih => exact h.step.andThen fun _ _ => ih

end lookAlike

/-! ## The statements of 10_state.md -/

/-- Settles O38: the invariant holds after a reset, and the latch, the flags and every command keep it. -/
theorem stepsKeepTheInvariant : Obligations.StepsKeepTheInvariant :=
  fun _ _ => stepInvariant_inv.step

/-- Settles O39: SCHED starts the count of PRGA steps at 0, PROC adds 1, and what changes the key clears
KEYED. -/
theorem stepsKeepKeyedMeaningScheduled : Obligations.StepsKeepKeyedMeaningScheduled :=
  fun _ _ => stepInvariant_keyedMeansScheduled.step

/-- Settles O40: look-alike machines take the same step. -/
theorem unspecifiedContentsAreUnobservable : Obligations.UnspecifiedContentsAreUnobservable :=
  fun _ _ he hs hr => LookAlike.step ⟨he, hs, hr⟩

/-- Settles O13: the effect of each command names the fields it writes. -/
theorem commandsChangeOnlyTheirFields : Obligations.CommandsChangeOnlyTheirFields := by
  intro c s
  obtain ⟨e, he⟩ := exists_effect c s.eng
  refine ⟨_, exec_of_effect he, ?_⟩
  cases he <;> simp

/-- Settles O41: two reset draws look alike, and so do runs from look-alike machines. -/
theorem repliesDoNotDependOnResetContents : Obligations.RepliesDoNotDependOnResetContents := by
  intro S K S' K' PEND PEND' script k
  have hreset := sameToHost_of_reset S K S' K' PEND PEND'
  obtain ⟨t, t', ht, ht', he, -, hr⟩ | hfault :=
    LookAlike.runSteps k (s := ⟨_, script, []⟩) (s' := ⟨_, script, []⟩) ⟨hreset, rfl, rfl⟩
  · exact .inl ⟨t, t', ht, ht', hr, he.err, he.dout⟩
  · exact .inr hfault

/-- Settles O42: an aligned read answers `regRead`, whose content at each offset the lemmas above give. -/
theorem readsReturnTheRegisterMap : Obligations.ReadsReturnTheRegisterMap := by
  intro s off rest ha hs
  refine ⟨_, step_read ha hs, ?_, ?_, ?_, ?_, ?_, ?_, ?_⟩
  · rintro rfl; rfl
  · rintro rfl
    exact ⟨status_toNat_lt _, status_getLsbD_zero _, status_getLsbD_one _,
      by rw [← errAny_iff, ← status_getLsbD_two]; rfl⟩
  · rintro rfl
    exact ⟨errContent_toNat_lt s.eng, errContent_getLsbD s.eng⟩
  · rintro rfl
    exact BitVec.toNat_setWidth_of_le (by decide)
  · rintro rfl
    exact BitVec.toNat_setWidth_of_le (by decide)
  · rintro rfl
    exact idx_toNat _ _
  · intro h
    rw [Rc4Eng.regRead, regAt_reserved h]; rfl

/-- Settles O45: a host access reaches the latch and the error flags only. -/
theorem hostAccessesLeaveTheCipherAlone : Obligations.HostAccessesLeaveTheCipherAlone := by
  intro s t a rest hs h
  rw [step_cons hs] at h
  obtain ⟨b, p, r, ht⟩ := hostAccess_eng h
  rw [ht]
  exact ⟨rfl, rfl, rfl, rfl, rfl, rfl, rfl⟩

/-- Settles O35: the draw is zero in every entry and in PEND. -/
theorem resetStateIsAResetDraw : Obligations.ResetStateIsAResetDraw :=
  ⟨Vector.replicate 256 0#8, Vector.replicate 256 0#8, 0#32, rfl⟩

/-- Settles O37: a reset clears KEYED and KEYLEN, whatever the draw. -/
theorem invariantsHoldAfterReset : Obligations.InvariantsHoldAfterReset :=
  fun S K PEND => ⟨inv_reset S K PEND, keyedMeansScheduled_reset S K PEND, inv_reset _ _ _,
    keyedMeansScheduled_reset _ _ _⟩

end Sys2Proof.Machine

namespace Sys2Proof.Machine

/-! ## Runs of several steps

`runSteps_of_step` and `runSteps_add` take a run apart; `runSteps_reads` and `runSteps_command` say what the
two scripts of a polling host do: a row of reads, and a command polled until BUSY = 0. -/

theorem runSteps_of_step {s t : State} (h : step s = .next t) (k : Nat) :
    runSteps (k + 1) s = runSteps k t := by
  rw [runSteps, h, andThen_next]

theorem runSteps_add {s t : State} {m : Nat} (h : runSteps m s = .next t) (n : Nat) :
    runSteps (m + n) s = runSteps n t := by
  induction m generalizing s with
  | zero => cases h; rw [Nat.zero_add]
  | succ m ih =>
    rw [runSteps] at h
    rw [Nat.succ_add, runSteps]
    cases hs : step s with
    | next s' => rw [hs] at h; exact ih h
    | fault x => rw [hs] at h; cases h
    | refused y => rw [hs] at h; cases h

/-- What a RegRead at `off` tells the host while the engine is `e` (rule R52). -/
def Rc4Eng.reply (e : Rc4Eng) (off : Offset) : Reply := { off := off, data := e.regRead off }

/-- A row of aligned reads sees one engine and changes nothing but the replies (rules R58, R221). -/
theorem runSteps_reads {s : State} {offs : List Offset} {rest : List Event}
    (ha : ∀ o ∈ offs, o.toNat % 4 = 0) (hs : s.script = offs.map readEvent ++ rest) :
    runSteps offs.length s =
      .next { s with script := rest, replies := s.replies ++ offs.map s.eng.reply } := by
  induction offs generalizing s with
  | nil =>
    cases hs
    rw [List.map_nil, List.append_nil]
    rfl
  | cons o os ih =>
    obtain ⟨ho, hos⟩ := List.forall_mem_cons.mp ha
    rw [List.length_cons, runSteps_of_step (step_read ho hs), ih hos rfl]
    simp [Rc4Eng.reply]

/-- Polls that all come before the engine's next turn get one and the same answer (rules R61, R214). -/
theorem runSteps_polls {s : State} {p : Nat} {rest : List Event}
    (hs : s.script = List.replicate p (readEvent offStatus) ++ rest) :
    runSteps p s = .next { s with
      script := rest, replies := s.replies ++ List.replicate p (s.eng.reply offStatus) } := by
  have ha : ∀ o ∈ List.replicate p offStatus, o.toNat % 4 = 0 := fun o ho => by
    rw [List.eq_of_mem_replicate ho]; decide
  simpa using runSteps_reads ha (by rw [List.map_replicate]; exact hs)

/-- The engine step completes from every state, idle, with an engine that depends on the engine alone (rule
R104). -/
theorem engineStep_function (e : Rc4Eng) :
    ∃ e' : Rc4Eng, e'.BUSY = false ∧
      ∀ s : State, s.eng = e → engineStep s = .next (s.withEng e') := by
  cases hd : decode e.PEND with
  | ok c =>
    obtain ⟨e', he⟩ := exists_effect c e
    refine ⟨{ e' with BUSY := false }, rfl, ?_⟩
    rintro s rfl
    exact engineStep_of_effect hd he
  | error why =>
    refine ⟨{ e.setErr .ill with BUSY := false }, rfl, ?_⟩
    rintro s rfl
    exact engineStep_of_illegal hd

/-- The engine with the command word `w` latched (rule R101). -/
def Rc4Eng.latch (e : Rc4Eng) (w : Word) : Rc4Eng := { e with PEND := w, BUSY := true }

/-- A CMD write to an idle engine latches the word (rule R101). -/
theorem step_latch {s : State} {w : Word} {rest : List Event} (hb : s.eng.BUSY = false)
    (h : s.script = writeEvent offCmd w :: rest) :
    step s = .next { s with script := rest, eng := s.eng.latch w } := by
  have hw : s.eng.regWrite offCmd w = s.eng.latch w := if_pos hb
  rw [step_write (by decide) h, hw]

/-- A command polled `p` times before its engine step: the polls see it latched, and the STATUS read after
the step sees its results (rules R61, R62, R214). -/
theorem runSteps_command {s : State} {w : Word} {p : Nat} {rest : List Event} {e' : Rc4Eng}
    (hb : s.eng.BUSY = false) (hs : s.script = commandEvents w p ++ rest)
    (he : ∀ t : State, t.eng = s.eng.latch w → engineStep t = .next (t.withEng e')) :
    runSteps (p + 3) s = .next { s with
      eng := e'
      script := rest
      replies := s.replies ++
        (List.replicate p ((s.eng.latch w).reply offStatus) ++ [e'.reply offStatus]) } := by
  rw [commandEvents, List.cons_append, List.append_assoc] at hs
  calc runSteps (p + 3) s
    _ = runSteps (p + 2) _ := runSteps_of_step (step_latch hb hs) (p + 2)
    _ = runSteps 2 _ := runSteps_add (runSteps_polls rfl) 2
    _ = runSteps 1 _ := runSteps_of_step ((step_engine rfl rfl).trans (he _ rfl)) 1
    _ = runSteps 0 _ := runSteps_of_step (step_read (by decide) rfl) 0
    _ = _ := by simp [runSteps, Rc4Eng.reply, State.withEng]

/-! ## Loading a key -/

/-- KLOAD's count does not wrap (rule R23). -/
theorem keylen_succ_toNat {k : BitVec 9} (h : k.toNat < 256) : (k + 1#9).toNat = k.toNat + 1 := by
  rw [BitVec.toNat_add, BitVec.toNat_ofNat]; omega

/-- While there is room, the entry that KLOAD writes is the one KEYLEN names (rule R122). -/
theorem keyWriteIndex_toNat {k : BitVec 9} (h : k.toNat < 256) : (keyWriteIndex k).toNat = k.toNat := by
  rw [keyWriteIndex, BitVec.toNat_setWidth]; omega

/-- KLOAD with room puts its byte at the entry KEYLEN names, and counts it (rule R122). -/
theorem exec_kload_append (d : Byte) (s : State) (h : s.eng.KEYLEN.toNat < 256) :
    ∃ K KEYLEN,
      exec (.kload d) s =
        .next (s.withEng { s.eng with K := K, KEYLEN := KEYLEN, KEYED := false }) ∧
      KEYLEN.toNat = s.eng.KEYLEN.toNat + 1 ∧
      ∀ a : Byte, readEntry K a = if a.toNat = s.eng.KEYLEN.toNat then d else readEntry s.eng.K a := by
  have hroom : s.eng.KEYLEN ≠ 256#9 := mt (keylen_eq_full_iff _).mp h.ne
  refine ⟨_, _, exec_kload_room d s hroom, keylen_succ_toNat h, fun a => ?_⟩
  have hidx : a = keyWriteIndex s.eng.KEYLEN ↔ a.toNat = s.eng.KEYLEN.toNat := by
    rw [← BitVec.toNat_inj, keyWriteIndex_toNat h]
  simp only [readEntry_writeEntry, hidx]

/-- KLOADs that fit append their bytes: the entries below the old KEYLEN stay, and byte `n` comes to the
`n`-th entry from there (rules R56, R122). -/
theorem runCommands_kloads (key : List Byte) (s : State) (hk : s.eng.KEYED = false)
    (hroom : s.eng.KEYLEN.toNat + key.length ≤ 256) :
    ∃ K KEYLEN,
      runCommands (key.map .kload) s = .next (s.withEng { s.eng with K := K, KEYLEN := KEYLEN }) ∧
      KEYLEN.toNat = s.eng.KEYLEN.toNat + key.length ∧
      (∀ a : Byte, a.toNat < s.eng.KEYLEN.toNat → readEntry K a = readEntry s.eng.K a) ∧
      ∀ n (h : n < key.length), readEntry K (BitVec.ofNat 8 (s.eng.KEYLEN.toNat + n)) = key[n] := by
  induction key generalizing s with
  | nil => exact ⟨s.eng.K, s.eng.KEYLEN, rfl, rfl, fun _ _ => rfl, nofun⟩
  | cons d ds ih =>
    rw [List.length_cons] at hroom
    have hlt : s.eng.KEYLEN.toNat < 256 := by omega
    obtain ⟨K₁, k₁, hexec, hk₁, hK₁⟩ := exec_kload_append d s hlt
    obtain ⟨K, k, hrun, hlen, hold, hnew⟩ :=
      ih (s.withEng { s.eng with K := K₁, KEYLEN := k₁, KEYED := false }) rfl
        (by rw [State.withEng_eng, hk₁]; omega)
    simp only [State.withEng_eng, hk₁] at hlen hold hnew
    refine ⟨K, k, ?_, ?_, fun a ha => ?_, ?_⟩
    · rw [List.map_cons, runCommands, hexec, andThen_next, hrun]
      simp [hk]
    · rw [hlen, List.length_cons]; omega
    · rw [hold a (by omega), hK₁, if_neg ha.ne]
    · rintro (_ | n) hn
      · have hat : (BitVec.ofNat 8 s.eng.KEYLEN.toNat).toNat = s.eng.KEYLEN.toNat :=
          (BitVec.toNat_ofNat ..).trans (Nat.mod_eq_of_lt hlt)
        rw [Nat.add_zero, hold _ (by omega), hK₁, if_pos hat, List.getElem_cons_zero]
      · rw [← Nat.add_assoc, Nat.add_right_comm]
        exact hnew n (Nat.lt_of_succ_lt_succ hn)

/-! ## The register port -/

/-- The port carries an access exactly if it is a whole word at a multiple of 4 (rules R53, R54). -/
theorem Access.ok_iff (a : Access) :
    a.ok = true ↔ a.width = .bits32 ∧ a.enables = 0xF#4 ∧ a.off.toNat % 4 = 0 := by
  simp [Access.ok, and_assoc]

/-- CMD is word slot 0 (rule R35). -/
theorem regAt_eq_cmd_iff (off : Offset) : regAt off = .cmd ↔ off.toNat / 4 = 0 := by
  unfold regAt
  split <;> simp_all

/-- The aligned offset of CMD is 0x00 (rule R35). -/
theorem off_of_regAt_cmd {off : Offset} (ha : off.toNat % 4 = 0) (h : regAt off = .cmd) :
    off = 0x00#6 := by
  have hslot := (regAt_eq_cmd_iff off).mp h
  apply BitVec.eq_of_toNat_eq
  rw [BitVec.toNat_ofNat]
  omega

/-- A lane as a number (rule R55). -/
theorem laneByte_toNat (w : Word) (n : Fin 4) :
    (laneByte w n).toNat = w.toNat / 2 ^ (8 * n.val) % 2 ^ 8 := by
  rw [laneByte, BitVec.extractLsb'_toNat, Nat.shiftRight_eq_div_pow]

/-- Bytes put side by side, as a number. -/
theorem append_toNat {m n : Nat} (x : BitVec m) (y : BitVec n) :
    (x ++ y).toNat = 2 ^ n * x.toNat + y.toNat := by
  rw [BitVec.toNat_append, ← Nat.shiftLeft_add_eq_or_of_lt y.isLt, Nat.shiftLeft_eq, Nat.mul_comm]

theorem wordOfLanes_toNat (b0 b1 b2 b3 : Byte) :
    (wordOfLanes b0 b1 b2 b3).toNat =
      b0.toNat + 2 ^ 8 * b1.toNat + 2 ^ 16 * b2.toNat + 2 ^ 24 * b3.toNat := by
  rw [wordOfLanes, append_toNat, append_toNat, append_toNat]
  omega

/-- The lanes of a word are its digits in base 256, lowest first (rule R55). -/
theorem toNat_eq_lanes (w : Word) :
    w.toNat = (laneByte w 0).toNat + 2 ^ 8 * (laneByte w 1).toNat + 2 ^ 16 * (laneByte w 2).toNat +
      2 ^ 24 * (laneByte w 3).toNat := by
  have h0 : (laneByte w 0).toNat = w.toNat % 2 ^ 8 := by rw [laneByte_toNat]; simp
  have h1 : (laneByte w 1).toNat = w.toNat / 2 ^ 8 % 2 ^ 8 := laneByte_toNat w 1
  have h2 : (laneByte w 2).toNat = w.toNat / 2 ^ 16 % 2 ^ 8 := laneByte_toNat w 2
  have h3 : (laneByte w 3).toNat = w.toNat / 2 ^ 24 % 2 ^ 8 := laneByte_toNat w 3
  have hlt := w.isLt
  omega

/-- An address lies in a window at offset `off` exactly if it is the base plus `off` (rule R51). -/
theorem windowOffset_eq_some_iff (block addr : Nat) (off : Offset) :
    windowOffset block addr = some off ↔ addr = 64 * block + off.toNat := by
  have hlt := off.isLt
  have hlow : BitVec.ofNat 6 addr = off ↔ addr % 64 = off.toNat := by
    rw [← BitVec.toNat_inj, BitVec.toNat_ofNat]
  rw [windowOffset, Option.ite_none_right_eq_some, Option.some_inj, hlow]
  omega

/-! ## The statements of 20_memory.md -/

/-- Settles O17: KCLR makes KEYLEN 0, so the bytes that the KLOADs append start at entry 0. -/
theorem kloadsFillTheKeyInOrder : Obligations.KloadsFillTheKeyInOrder := by
  intro key s hlen
  obtain ⟨K, KEYLEN, hrun, hcount, -, hnew⟩ :=
    runCommands_kloads key (s.withEng { s.eng with KEYLEN := 0#9, KEYED := false }) rfl
      (by simpa using hlen)
  exact ⟨_, hrun, rfl, by simpa using hcount, by simpa using hnew⟩

/-- Settles O43, by induction on the reads. -/
theorem readsAreIdempotentWhilePending : Obligations.ReadsAreIdempotentWhilePending :=
  fun _ _ _ ha hs => runSteps_reads ha hs

/-- Settles O50: the polled command, and then a row of reads. -/
theorem completionMakesEffectsVisible : Obligations.CompletionMakesEffectsVisible := by
  intro s w p offs rest hb ha hs
  obtain ⟨e', hidle, he⟩ := engineStep_function (s.eng.latch w)
  refine ⟨_, he _ rfl, hidle, ?_⟩
  rw [runSteps_add (runSteps_command hb hs he), runSteps_reads ha rfl]
  simp [Rc4Eng.reply, Rc4Eng.latch, offStatus]

/-- Settles O44: only CMD and ERR have a write action, and their aligned offsets are 0x00 and 0x08. -/
theorem otherWritesAreIgnored : Obligations.OtherWritesAreIgnored := by
  intro s off v rest ha hcmd herr hs
  rw [step_write ha hs]
  obtain ⟨h, -⟩ | ⟨h, -⟩ | ⟨h, -⟩ | ⟨-, -, h⟩ := regWrite_cases s.eng off v
  · exact absurd (off_of_regAt_cmd ha h) hcmd
  · exact absurd (off_of_regAt_cmd ha h) hcmd
  · exact absurd (off_of_regAt_err (ok_writeAt v ha) h) herr
  · rw [h]

/-- Settles O46: such an access is one that the port does not carry. -/
theorem badAccessesAreHostFaults : Obligations.BadAccessesAreHostFaults := by
  intro s a rest hs hbad
  have hok : ¬ a.ok = true := fun h => by
    obtain ⟨hw, he, ho⟩ := a.ok_iff.mp h
    obtain hbad | hbad | hbad := hbad
    · exact hbad hw
    · exact hbad he
    · exact hbad ho
  exact ⟨(step_cons hs).trans (if_neg hok), if_neg hok⟩

/-- Settles O48: both words are the same number in base 256. -/
theorem byteLanesAreLittleEndian : Obligations.ByteLanesAreLittleEndian := fun w =>
  ⟨toNat_eq_lanes w, BitVec.eq_of_toNat_eq ((wordOfLanes_toNat ..).trans (toNat_eq_lanes w).symm)⟩

/-- Settles O49: the base of the window is the block at its quotient by 64. -/
theorem windowDecodesTheLowAddressBits : Obligations.WindowDecodesTheLowAddressBits := by
  refine ⟨windowOffset_eq_some_iff, fun off width enables kind => ?_⟩
  have hoff : windowOffset Config.rc4BaseBlock (Config.rc4Base + off.toNat) = some off :=
    (windowOffset_eq_some_iff _ _ off).mpr rfl
  rw [routeAccess, hoff, Option.map_some]

end Sys2Proof.Machine

namespace Sys2Proof

/-! ## The decoder and the encoder undo each other -/

theorem noOperand_eq_ok_iff {d : Byte} {c i : Instr} :
    noOperand d c = .ok i ↔ d = 0#8 ∧ c = i := by
  unfold noOperand
  split <;> simp_all

theorem eq_ofNat_of_toNat_eq {n k : Nat} {x : BitVec n} (h : x.toNat = k) : x = BitVec.ofNat n k := by
  rw [← h, BitVec.ofNat_toNat, BitVec.setWidth_eq]

/-- Fields decode to the command whose fields they are, and to no other (rules R82, R86). -/
theorem decodeFields_eq_ok_iff {f : CommandFields} {i : Instr} :
    decodeFields f = .ok i ↔ i.fields = f := by
  constructor
  · obtain ⟨r, o, d⟩ := f
    intro h
    unfold decodeFields at h
    split at h
    case isTrue => cases h
    case isFalse hr =>
      cases of_not_not hr
      split at h
      case h_1 ho | h_2 ho | h_4 ho =>
        obtain ⟨rfl, rfl⟩ := noOperand_eq_ok_iff.mp h
        cases eq_ofNat_of_toNat_eq ho
        rfl
      case h_3 ho | h_5 ho | h_6 ho =>
        cases h
        cases eq_ofNat_of_toNat_eq ho
        rfl
      case h_7 => cases h
  · rintro rfl
    cases i <;> rfl

/-- A word decodes to a command exactly if it is the command's word (rule R86). -/
theorem decode_eq_ok_iff {w : Word} {i : Instr} : decode w = .ok i ↔ encode i = w := by
  rw [decode, decodeFields_eq_ok_iff, encode]
  constructor
  · intro h; rw [h, word_fieldsOf]
  · rintro rfl; rw [fieldsOf_word]

theorem decode_encode (i : Instr) : decode (encode i) = .ok i := decode_eq_ok_iff.mpr rfl

/-! ## The word-pattern table -/

theorem word_inj {f g : CommandFields} : f.word = g.word ↔ f = g :=
  (Function.LeftInverse.injective fieldsOf_word).eq_iff

/-- The mask of a row with an operand keeps RSV and OPC and drops DATA (rule R82). -/
theorem word_and_operandMask (f : CommandFields) :
    f.word &&& 0xFFFFFF00#32 = { f with data := 0#8 : CommandFields }.word := by
  have hmask : (0xFFFFFF00#32 : Word) = BitVec.allOnes 16 ++ (BitVec.allOnes 8 ++ 0#8) := by decide
  rw [hmask, CommandFields.word, BitVec.and_append, BitVec.and_append, BitVec.and_allOnes,
    BitVec.and_allOnes, BitVec.and_zero]
  rfl

/-- The commands, one disjunct for each row of the opcode table (rule R82). -/
theorem exists_instr_iff {P : Instr → Prop} :
    (∃ i, P i) ↔ P .nop ∨ P .kclr ∨ (∃ d, P (.kload d)) ∨ P .sched ∨ (∃ d, P (.proc d)) ∨
      ∃ d, P (.peek d) := by
  constructor
  · rintro ⟨i, h⟩
    cases i with
    | nop => exact .inl h
    | kclr => exact .inr (.inl h)
    | kload d => exact .inr (.inr (.inl ⟨d, h⟩))
    | sched => exact .inr (.inr (.inr (.inl h)))
    | proc d => exact .inr (.inr (.inr (.inr (.inl ⟨d, h⟩))))
    | peek d => exact .inr (.inr (.inr (.inr (.inr ⟨d, h⟩))))
  · rintro (h | h | ⟨d, h⟩ | h | ⟨d, h⟩ | ⟨d, h⟩) <;> exact ⟨_, h⟩

section rows
variable (w : Word)

/-- The row of a command without operand admits that command's word alone (rule R82). -/
theorem and_fullMask_eq_iff {p : Word} (c : Instr) (hp : encode c = p) :
    w &&& 0xFFFFFFFF#32 = p ↔ decode w = .ok c := by
  have hmask : (0xFFFFFFFF#32 : Word) = BitVec.allOnes 32 := by decide
  rw [decode_eq_ok_iff, hp, hmask, BitVec.and_allOnes, eq_comm]

/-- The row of a command with an operand admits its words, whatever the operand (rule R82). -/
theorem and_operandMask_eq_iff {p : Word} (mk : Byte → Instr) {opc : Byte}
    (hmk : ∀ d, (mk d).fields = { rsv := 0#16, opc := opc, data := d }) (hp : encode (mk 0#8) = p) :
    w &&& 0xFFFFFF00#32 = p ↔ ∃ d, decode w = .ok (mk d) := by
  obtain ⟨⟨r, o, d⟩, rfl⟩ : ∃ f : CommandFields, f.word = w := ⟨fieldsOf w, word_fieldsOf w⟩
  rw [← hp, encode, hmk, word_and_operandMask, word_inj]
  simp only [decode_word, decodeFields_eq_ok_iff, hmk, CommandFields.mk.injEq]
  constructor
  · rintro ⟨hr, ho, -⟩
    exact ⟨d, hr.symm, ho.symm, rfl⟩
  · rintro ⟨-, hr, ho, -⟩
    exact ⟨hr.symm, ho.symm, trivial⟩

/-- A row admits exactly the words of the commands with its mnemonic (rule R82). -/
theorem and_mask_eq_pattern_iff : ∀ r ∈ opTable,
    (w &&& r.mask = r.pattern ↔ ∃ i, decode w = .ok i ∧ i.mnemonic = r.mnemonic) := by
  simp only [opTable, List.forall_mem_cons, and_true, exists_instr_iff, Instr.mnemonic]
  refine ⟨?_, ?_, ?_, ?_, ?_, ?_, List.forall_mem_nil _⟩
  · exact Iff.trans (and_fullMask_eq_iff w .nop rfl) (by simp)
  · exact Iff.trans (and_fullMask_eq_iff w .kclr rfl) (by simp)
  · exact Iff.trans (and_operandMask_eq_iff w .kload (fun _ => rfl) rfl) (by simp)
  · exact Iff.trans (and_fullMask_eq_iff w .sched rfl) (by simp)
  · exact Iff.trans (and_operandMask_eq_iff w .proc (fun _ => rfl) rfl) (by simp)
  · exact Iff.trans (and_operandMask_eq_iff w .peek (fun _ => rfl) rfl) (by simp)

end rows

/-- The table lists each mnemonic once (rule R82). -/
theorem opTable_mnemonic_inj : ∀ r ∈ opTable, ∀ q ∈ opTable, r.mnemonic = q.mnemonic → r = q := by
  decide

/-! ## Illegal words -/

theorem exists_decode_error_iff (w : Word) :
    (∃ why, decode w = .error why) ↔ (fieldsOf w).wf = false := by
  rw [← Bool.not_eq_true, ← decodeFields_ok_iff_wf, ← decode]
  cases decode w <;> simp

/-- The checks of a command word as numbers (rules R81, R84, R85). -/
theorem CommandFields.wf_iff (f : CommandFields) :
    f.wf = true ↔
      f.rsv.toNat = 0 ∧ f.opc.toNat ≤ 5 ∧ (f.opc.toNat ∈ [0, 1, 3] → f.data.toNat = 0) := by
  simp [CommandFields.wf, CommandFields.rsvOk, CommandFields.opcOk, CommandFields.dataOk,
    ← BitVec.toNat_inj, and_assoc, imp_iff_not_or]

/-- The illegal words are those of rule R85. -/
theorem decode_error_iff (w : Word) :
    (∃ why, decode w = .error why) ↔
      (w.toNat / 2 ^ 16 ≠ 0 ∨ 6 ≤ w.toNat / 2 ^ 8 % 2 ^ 8 ∨
        (w.toNat / 2 ^ 8 % 2 ^ 8 ∈ [0, 1, 3] ∧ w.toNat % 2 ^ 8 ≠ 0)) := by
  rw [exists_decode_error_iff, ← Bool.not_eq_true, CommandFields.wf_iff, fieldsOf_rsv_toNat,
    fieldsOf_opc_toNat, fieldsOf_data_toNat]
  simp only [not_and_or, Classical.not_imp, not_le, Nat.succ_le_iff]

end Sys2Proof

namespace Sys2Proof.Machine

/-! ## What the assembler's lines stand for -/

/-- Only a command is written to CMD, as its word (rule R87). -/
theorem HostAction.word_eq_some_iff {a : HostAction} {w : Word} :
    a.word = some w ↔ ∃ i, a = .command i ∧ encode i = w := by
  cases a <;> simp [HostAction.word]

/-- A line with one operand assembles to its opcode and byte, or is rejected (rule R87). -/
theorem assemble_operand {l : AsmLine} {i : Instr} {b : Nat}
    (henc : Laws.EncodesOpcodeAndByte.Statement i) (hdata : i.fields.data = BitVec.ofNat 8 b)
    (hwf : l.wf = fitsByte b) (hacts : l.actions = [.command i]) :
    (assemble l).map (List.filterMap HostAction.word) =
      if b < 256 then some [BitVec.ofNat 32 (i.fields.opc.toNat * 2 ^ 8 + b)] else none := by
  rw [assemble, hwf, hacts]
  by_cases hb : b < 256
  · have hbyte : i.fields.data.toNat = b := by
      rw [hdata, BitVec.toNat_ofNat, Nat.mod_eq_of_lt hb]
    have hword := eq_ofNat_of_toNat_eq henc.2
    rw [hbyte] at hword
    simp [fitsByte, hb, HostAction.word, hword]
  · simp [fitsByte, hb]

/-- A list with a byte of 256 or more does not fit (rule R87). -/
theorem all_fitsByte_eq_false {bs : List Nat} {b : Nat} (hmem : b ∈ bs) (hb : 256 ≤ b) :
    bs.all fitsByte = false :=
  List.all_eq_false.mpr ⟨b, hmem, by simp [fitsByte, hb]⟩

@[simp] theorem fitsByte_toNat (d : Byte) : fitsByte d.toNat = true := by
  simp [fitsByte, Byte.toNat_lt]

/-- `setkey` is `kclr` and a `kload` of each byte (rule R88). -/
theorem assemble_setkey (bs : List Byte) :
    assemble (.setkey (bs.map BitVec.toNat)) =
      if 1 ≤ bs.length ∧ bs.length ≤ 256
      then some (.command .kclr :: bs.map fun b => .command (.kload b)) else none := by
  simp [assemble, AsmLine.wf, AsmLine.actions, Function.comp_def]

/-- `crypt` is a `proc` and a read of DOUT for each byte (rule R88). -/
theorem assemble_crypt (bs : List Byte) :
    assemble (.crypt (bs.map BitVec.toNat)) =
      some (bs.flatMap fun b => [.command (.proc b), .read .dout]) := by
  simp [assemble, AsmLine.wf, AsmLine.actions, List.flatMap_map]

/-- Writing 1 to each of the five flags clears them all (rule R177). -/
theorem regWrite_err_allFlags (e : Rc4Eng) :
    e.regWrite offErr 0x1F#32 = { e with ERR := 0b00000#5 } := by
  have hmask : ~~~((0x1F#32).extractLsb' 0 5) = 0#5 := by decide
  have hwrite : e.regWrite offErr 0x1F#32 = e.clearErr 0x1F#32 := rfl
  rw [hwrite, Rc4Eng.clearErr, hmask, BitVec.and_zero]

/-! ## The statements of 30_encoding.md -/

/-- Settles O1: fields decode to the command whose fields they are, and a word is the word of its
fields. -/
theorem decodeInvertsEncode : Obligations.DecodeInvertsEncode := fun _ _ => decode_eq_ok_iff

/-- Settles O2: a row admits the words of its mnemonic, so a word that matches two rows gives both the
mnemonic of the one command it decodes to. -/
theorem decodeFollowsTheOpcodeTable : Obligations.DecodeFollowsTheOpcodeTable := by
  refine ⟨rfl, and_mask_eq_pattern_iff, fun w r hr q hq hwr hwq => ?_⟩
  obtain ⟨i, hi, hir⟩ := (and_mask_eq_pattern_iff w r hr).mp hwr
  obtain ⟨k, hk, hkq⟩ := (and_mask_eq_pattern_iff w q hq).mp hwq
  cases hi.symm.trans hk
  exact opTable_mnemonic_inj r hr q hq (hir.symm.trans hkq)

/-- Settles O3: the decoder evaluated on each word. -/
theorem manualWordsDecode : Obligations.ManualWordsDecode :=
  ⟨rfl, rfl, rfl, rfl, rfl, rfl, ⟨_, rfl⟩, ⟨_, rfl⟩, ⟨_, rfl⟩⟩

/-- Settles O4: the illegal words fail a check of WellFormed, and the engine step gives each of them
ERR.ILL. -/
theorem illegalWordsOnlySetIll : Obligations.IllegalWordsOnlySetIll :=
  ⟨decode_error_iff, fun _ _ _ hs hb hd => (step_engine hb hs).trans (engineStep_of_illegal hd)⟩

/-- Settles O56: an action that writes to CMD writes an encoded command. -/
theorem assemblerEmitsOnlyCommands : Obligations.AssemblerEmitsOnlyCommands := by
  refine ⟨fun _ _ _ a _ w hw => ?_, fun b => ?_⟩
  · obtain ⟨i, rfl, rfl⟩ := HostAction.word_eq_some_iff.mp hw
    exact ⟨i, decode_encode i, rfl⟩
  · refine ⟨assemble_operand (i := .kload _) (Laws.EncodesOpcodeAndByte.kload _) rfl rfl rfl,
      assemble_operand (i := .proc _) (Laws.EncodesOpcodeAndByte.proc _) rfl rfl rfl,
      assemble_operand (i := .peek _) (Laws.EncodesOpcodeAndByte.peek _) rfl rfl rfl,
      rfl, rfl, rfl, fun bs hmem hb => ?_⟩
    simp [assemble, AsmLine.wf, all_fitsByte_eq_false hmem hb]

/-- Settles O57: the bytes of `setkey` and `crypt` fit, and 0x00 XOR the keystream byte is that byte. -/
theorem pseudoInstructionsExpand : Obligations.PseudoInstructionsExpand := by
  refine ⟨assemble_setkey, rfl, fun s hk => ?_, rfl, assemble_crypt, rfl, fun s rest hs => ?_⟩
  · exact ⟨_, exec_proc_keyed 0x00#8 s hk, BitVec.zero_xor⟩
  · exact (step_write (off := offErr) (by decide) hs).trans (by rw [regWrite_err_allFlags]; rfl)

end Sys2Proof.Machine

namespace Sys2Proof.Machine

/-! ## The engine's turn and the command latch -/

/-- The engine has its turn next in the script `evs`, and `rest` is left after it: the turn is scripted, or
the script has run out (rule R102; assumption 4). -/
def EngineNext (evs rest : List Event) : Prop := evs = .engine :: rest ∨ (evs = [] ∧ rest = [])

/-- With a command latched, the engine's turn is an engine step (rule R102). -/
theorem step_of_engineNext {s : State} {rest : List Event} (hb : s.eng.BUSY = true)
    (h : EngineNext s.script rest) : step s = engineStep { s with script := rest } := by
  obtain h | ⟨h, rfl⟩ := h
  · exact step_engine hb h
  · have hs : { s with script := [] } = s := by rw [← h]
    rw [step_nil h, hs]
    exact if_pos hb

/-- An idle engine lets its turn pass (rule R102; assumption 8). -/
theorem engineTurn_idle {s : State} (hb : s.eng.BUSY = false) : engineTurn s = .next s :=
  if_neg (by simp [hb])

/-- A CMD write while a command is latched is dropped and flagged (rules R101, R176). -/
theorem step_overrun {s : State} {w : Word} {rest : List Event} (hb : s.eng.BUSY = true)
    (h : s.script = writeEvent offCmd w :: rest) :
    step s = .next { s with script := rest, eng := s.eng.setErr .ovr } := by
  have hw : s.eng.regWrite offCmd w = s.eng.setErr .ovr :=
    if_neg (by simp [hb])
  rw [step_write (by decide) h, hw]

/-- A command word's number decodes as the word itself (rule R80). -/
theorem decode_of_decodeTableWord {w : Nat} {i : Instr} (h : decodeTableWord 32 w = some i) :
    decode (BitVec.ofNat 32 (w % 2 ^ 32)) = .ok i := by
  rw [decodeTableWord, if_pos le_rfl] at h
  cases hd : decode (BitVec.ofNat 32 (w % 2 ^ 32)) with
  | ok c => rw [hd] at h; cases h; rfl
  | error why => rw [hd] at h; cases h

/-- NOP, KCLR and SCHED words with a DATA byte that is not 0 are illegal (rule R84). -/
theorem decode_error_of_strayData {w : Word} (hopc : w.toNat / 2 ^ 8 ∈ [0, 1, 3])
    (hdata : w.toNat % 2 ^ 8 ≠ 0) : ∃ why, decode w = .error why := by
  have hlow : w.toNat / 2 ^ 8 % 2 ^ 8 = w.toNat / 2 ^ 8 := by
    simp only [List.mem_cons, List.not_mem_nil, or_false] at hopc
    omega
  exact (decode_error_iff w).mpr (.inr (.inr ⟨hlow.symm ▸ hopc, hdata⟩))

/-! ## The commands and the error flags -/

/-- The latched command is one that fails, and `f` is the flag it sets (rule R106). -/
def Rc4Eng.FailsWith (e : Rc4Eng) (f : ErrFlag) : Prop :=
  (f = .ill ∧ ∃ why, decode e.PEND = .error why) ∨
  (f = .key ∧ decode e.PEND = .ok .sched ∧ e.KEYLEN.toNat = 0) ∨
  (f = .klen ∧ (∃ d, decode e.PEND = .ok (.kload d)) ∧ e.KEYLEN.toNat = 256) ∨
  (f = .seq ∧ (∃ d, decode e.PEND = .ok (.proc d) ∨ decode e.PEND = .ok (.peek d)) ∧ e.KEYED = false)

/-- The engine step of a failing command sets its flag and clears BUSY (rules R104, R106). -/
theorem engineStep_of_failsWith {s : State} {f : ErrFlag} (h : s.eng.FailsWith f) :
    engineStep s = .next (s.withEng { s.eng.setErr f with BUSY := false }) := by
  obtain ⟨rfl, why, hd⟩ | ⟨rfl, hd, hk⟩ | ⟨rfl, ⟨d, hd⟩, hk⟩ | ⟨rfl, ⟨d, hd | hd⟩, hk⟩ := h
  · exact engineStep_of_illegal hd
  · exact engineStep_of_effect hd (.schedEmpty ((keylen_eq_zero_iff _).mpr hk))
  · exact engineStep_of_effect hd (.kloadFull ((keylen_eq_full_iff _).mpr hk))
  · exact engineStep_of_effect hd (.procUnkeyed hk)
  · exact engineStep_of_effect hd (.peekUnkeyed hk)

/-- A command whose own check passes sets no flag (rule R181). -/
theorem CommandEffect.err_eq {e e' : Rc4Eng} {c : Instr} (h : CommandEffect e c e')
    (hsched : c = .sched → e.KEYLEN.toNat ≠ 0) (hkload : (∃ d, c = .kload d) → e.KEYLEN.toNat ≠ 256)
    (hkeyed : (∃ d, c = .proc d ∨ c = .peek d) → e.KEYED = true) : e'.ERR = e.ERR := by
  cases h with
  | nop | kclr | kloadRoom _ | schedKey _ | procKeyed _ | peekKeyed _ => rfl
  | schedEmpty hk => exact absurd ((keylen_eq_zero_iff _).mp hk) (hsched rfl)
  | kloadFull hk => exact absurd ((keylen_eq_full_iff _).mp hk) (hkload ⟨_, rfl⟩)
  | procUnkeyed hk => cases hk.symm.trans (hkeyed ⟨_, .inl rfl⟩)
  | peekUnkeyed hk => cases hk.symm.trans (hkeyed ⟨_, .inr rfl⟩)

/-- The effect adds the flags `m` to ERR, and with any other ERR the command has the same effect and adds
the same (rule R107). -/
def AddsFlags (e : Rc4Eng) (c : Instr) (e' : Rc4Eng) (m : BitVec 5) : Prop :=
  e'.ERR = e.ERR ||| m ∧ ∀ x, CommandEffect { e with ERR := x } c { e' with ERR := x ||| m }

theorem AddsFlags.none {e e' : Rc4Eng} {c : Instr} (herr : e'.ERR = e.ERR)
    (h : ∀ x, CommandEffect { e with ERR := x } c { e' with ERR := x }) : AddsFlags e c e' 0#5 :=
  ⟨by rw [BitVec.or_zero, herr], fun x => by rw [BitVec.or_zero]; exact h x⟩

/-- No command's check looks at ERR (rule R107). -/
theorem CommandEffect.addsFlags {e e' : Rc4Eng} {c : Instr} (h : CommandEffect e c e') :
    ∃ m, AddsFlags e c e' m := by
  cases h with
  | nop => exact ⟨_, .none rfl fun _ => .nop⟩
  | kclr => exact ⟨_, .none rfl fun _ => .kclr⟩
  | kloadRoom hk => exact ⟨_, .none rfl fun _ => .kloadRoom hk⟩
  | schedKey hk => exact ⟨_, .none rfl fun _ => .schedKey hk⟩
  | procKeyed hk => exact ⟨_, .none rfl fun _ => .procKeyed hk⟩
  | peekKeyed hk => exact ⟨_, .none rfl fun _ => .peekKeyed hk⟩
  | kloadFull hk => exact ⟨_, rfl, fun _ => .kloadFull hk⟩
  | schedEmpty hk => exact ⟨_, rfl, fun _ => .schedEmpty hk⟩
  | procUnkeyed hk => exact ⟨_, rfl, fun _ => .procUnkeyed hk⟩
  | peekUnkeyed hk => exact ⟨_, rfl, fun _ => .peekUnkeyed hk⟩

/-! ## From the latch to the engine step -/

/-- While a command is latched, a good host access changes only ERR and the replies (rules R52, R101). -/
theorem hostAccess_busy {a : Access} {s : State} (hok : a.ok = true) (hb : s.eng.BUSY = true) :
    ∃ r rs, hostAccess a s = .next { s with eng := { s.eng with ERR := r }, replies := rs } := by
  obtain ⟨-, -, h⟩ | ⟨-, v, -, h⟩ | ⟨hbad, -⟩ := hostAccess_cases a s
  · exact ⟨s.eng.ERR, _, h⟩
  · obtain ⟨-, hidle, -⟩ | ⟨-, -, hw⟩ | ⟨-, hw⟩ | ⟨-, -, hw⟩ := regWrite_cases s.eng a.off v
    · cases hidle.symm.trans hb
    · exact ⟨_, s.replies, by rw [h, hw]; rfl⟩
    · exact ⟨_, s.replies, by rw [h, hw]; rfl⟩
    · exact ⟨s.eng.ERR, s.replies, by rw [h, hw]; rfl⟩
  · cases hbad.symm.trans hok

/-- Past the host accesses at the front of a script with no bad access, a latched command still stands, and
the engine's turn or a reset is next. -/
theorem runSteps_to_turn {s : State} (hsafe : s.Safe) (hb : s.eng.BUSY = true) :
    ∃ k u, k ≤ s.script.length ∧ runSteps k s = .next u ∧ u.eng = { s.eng with ERR := u.eng.ERR } ∧
      u.script ⊆ s.script ∧
      (EngineNext u.script u.script.tail ∨ ∃ S K PEND rest, u.script = .reset S K PEND :: rest) := by
  induction hs : s.script generalizing s with
  | nil =>
    exact ⟨0, s, le_rfl, rfl, rfl, hs ▸ List.Subset.refl _, .inl (.inr ⟨hs, by rw [hs]; rfl⟩)⟩
  | cons ev rest ih =>
    cases ev with
    | engine =>
      exact ⟨0, s, Nat.zero_le _, rfl, rfl, hs ▸ List.Subset.refl _, .inl (.inl (by rw [hs]; rfl))⟩
    | reset S K PEND =>
      exact ⟨0, s, Nat.zero_le _, rfl, rfl, hs ▸ List.Subset.refl _, .inr ⟨S, K, PEND, rest, hs⟩⟩
    | host a =>
      rw [State.Safe, hs] at hsafe
      obtain ⟨hok, hrest⟩ := List.forall_mem_cons.mp hsafe
      obtain ⟨r, rs, ha⟩ := hostAccess_busy (s := { s with script := rest }) hok hb
      obtain ⟨k, u, hk, hrun, heng, hsub, hnext⟩ := ih
        (s := { s with eng := { s.eng with ERR := r }, script := rest, replies := rs }) hrest hb rfl
      have hsteps : runSteps (k + 1) s = .next u :=
        (runSteps_of_step ((step_cons hs).trans ha) k).trans hrun
      exact ⟨k + 1, u, Nat.succ_le_succ hk, hsteps, heng, List.subset_cons_of_subset _ hsub, hnext⟩

/-! ## The statements of 40_command_cycle.md -/

/-- Settles O9: a failing command's effect is its flag, and a command whose check passes keeps ERR. -/
theorem failingCommandsSetOneFlagOnly : Obligations.FailingCommandsSetOneFlagOnly := by
  intro s rest hs hb
  rw [step_engine hb hs]
  refine ⟨fun f hf => ?_, fun i hd hsched hkload hkeyed => ?_⟩
  · exact engineStep_of_failsWith (s := { s with script := rest }) hf
  · obtain ⟨e, he⟩ := exists_effect i s.eng
    exact ⟨_, engineStep_of_effect (s := { s with script := rest }) hd he,
      he.err_eq hsched hkload hkeyed⟩

/-- Settles O10: the effect with any ERR adds the same flags. -/
theorem errorsDoNotBlockCommands : Obligations.ErrorsDoNotBlockCommands := by
  intro i s x
  obtain ⟨e, he⟩ := exists_effect i s.eng
  obtain ⟨m, hm, hx⟩ := he.addsFlags
  exact ⟨_, m, exec_of_effect he, hm, exec_of_effect (s := s.withEng { s.eng with ERR := x }) (hx x)⟩

/-- Settles O52: host accesses leave the latched command standing, so it comes to the engine's turn, where it
executes, or to a reset, which discards it. -/
theorem latchedCommandsAreExecuted : Obligations.LatchedCommandsAreExecuted := by
  intro s hsafe hb
  obtain ⟨k, u, hk, hrun, heng, hsub, hnext⟩ := runSteps_to_turn hsafe hb
  have hbu : u.eng.BUSY = true := by rw [heng]; exact hb
  obtain ⟨e, hidle, he⟩ := engineStep_function u.eng
  refine ⟨fun hreset => ?_, k + 1, ?_⟩
  · obtain hturn | ⟨S, K, PEND, rest, hu⟩ := hnext
    · have hstep := step_of_engineNext hbu hturn
      exact ⟨k, u, _, hk, hrun, heng, hstep, hstep.trans (he _ rfl), hidle⟩
    · exact absurd (hsub (by rw [hu]; exact List.mem_cons_self)) (hreset S K PEND)
  · rw [runSteps_add hrun 1]
    obtain hturn | ⟨S, K, PEND, rest, hu⟩ := hnext
    · have hstep := (step_of_engineNext hbu hturn).trans (he _ rfl)
      exact ⟨_, Nat.succ_le_succ hk, runSteps_of_step hstep 0, hidle⟩
    · have hstep : step u = .next { u with script := rest, eng := .reset S K PEND } := step_cons hu
      exact ⟨_, Nat.succ_le_succ hk, runSteps_of_step hstep 0, rfl⟩

/-- Settles O5: the engine's turn is an engine step, which commits the command's effect. -/
theorem stepRunsTheDecodedCommand : Obligations.StepRunsTheDecodedCommand := by
  intro s i rest hs hb hd
  obtain ⟨e, he⟩ := exists_effect i s.eng
  exact ⟨_, exec_of_effect (s := { s with script := rest }) he,
    (step_of_engineNext hb hs).trans (engineStep_of_effect (s := { s with script := rest }) hd he)⟩

/-- Settles O6: `withFetchWord` latches the word and scripts the engine's turn. -/
theorem fetchedWordRunsNext : Obligations.FetchedWordRunsNext := by
  intro s w i hw
  have hword : BitVec.ofNat 32 (w % 2 ^ 32) = BitVec.ofNat 32 w :=
    BitVec.eq_of_toNat_eq (by simp)
  rw [← hword]
  exact stepRunsTheDecodedCommand (s.withFetchWord 32 w) i s.script (.inl rfl) rfl
    (decode_of_decodeTableWord hw)

/-- Settles O7: the two branches of a CMD write. -/
theorem cmdWriteLatchesOrOverruns : Obligations.CmdWriteLatchesOrOverruns :=
  fun _ _ _ hs => ⟨fun hb => step_latch hb hs, fun hb => step_overrun hb hs⟩

/-- Settles O8: an idle engine's turn passes, scripted or not. -/
theorem idleEngineChangesNothing : Obligations.IdleEngineChangesNothing := fun _ hb =>
  ⟨fun _ hs => (step_cons hs).trans (engineTurn_idle hb),
    fun hs => (step_nil hs).trans (engineTurn_idle hb)⟩

/-- Settles O14: NOP's arm is empty, and its word has DATA 0. -/
theorem nopChangesNothing : Obligations.NopChangesNothing :=
  ⟨rfl, fun _ => rfl, fun _ hopc => decode_error_of_strayData (by rw [hopc]; decide)⟩

end Sys2Proof.Machine

namespace Sys2Proof.Machine

/-! ## SCHED, and the two forms of its loop -/

/-- The machine with the S-box `B` keyed and the PRGA at its start: what SCHED leaves, whatever S-box it
has built (rule R128). -/
def State.keyedWith (s : State) (B : Buf) : State :=
  s.withEng { s.eng with S := B, i := 0#8, j := 0#8, KEYED := true }

section keyedWith
variable (s : State) (B : Buf)

@[simp] theorem State.keyedWith_S : (s.keyedWith B).eng.S = B := rfl
@[simp] theorem State.keyedWith_K : (s.keyedWith B).eng.K = s.eng.K := rfl
@[simp] theorem State.keyedWith_KEYLEN : (s.keyedWith B).eng.KEYLEN = s.eng.KEYLEN := rfl
@[simp] theorem State.keyedWith_i : (s.keyedWith B).eng.i = 0#8 := rfl
@[simp] theorem State.keyedWith_j : (s.keyedWith B).eng.j = 0#8 := rfl
@[simp] theorem State.keyedWith_KEYED : (s.keyedWith B).eng.KEYED = true := rfl
@[simp] theorem State.keyedWith_ERR : (s.keyedWith B).eng.ERR = s.eng.ERR := rfl

end keyedWith

/-- SCHED with a key in the buffer schedules it (rule R128). -/
theorem exec_sched_loaded (s : State) (h : s.eng.KEYLEN.toNat ≠ 0) :
    exec .sched s = .next (s.keyedWith (ksa s.eng.K s.eng.KEYLEN).S) :=
  exec_sched_key s (mt (keylen_eq_zero_iff _).mp h)

/-- What PEEK reads once the S-box is keyed (rule R150). -/
theorem dout_of_exec_peek {a : Byte} {s t : State} (hk : s.eng.KEYED = true)
    (h : exec (.peek a) s = .next t) : t.eng.DOUT = readEntry s.eng.S a := by
  cases (exec_peek_keyed a s hk).symm.trans h
  rfl

/-- The schedule depends on the key byte of each iteration alone, also between keys of different lengths
(rule R133). -/
theorem ksa_congr_keyStream {K K' : Buf} {KEYLEN KEYLEN' : BitVec 9}
    (h : ∀ n < 256, readEntry K (keyIndex KEYLEN n) = readEntry K' (keyIndex KEYLEN' n)) :
    ksa K KEYLEN = ksa K' KEYLEN' :=
  List.foldl_ext _ _ _ fun p n hn => by
    rw [Ksa.round, Ksa.round, h n (List.mem_range.mp hn)]

theorem keyWriteIndex_eq_ofNat (k : BitVec 9) : keyWriteIndex k = BitVec.ofNat 8 k.toNat := rfl

/-- Counting up and wrapping at `m` is counting modulo `m` (rule R129). -/
theorem wrappingSucc_mod {m : Nat} (hm : 0 < m) (n : Nat) :
    (if n % m + 1 = m then 0 else n % m + 1) = (n + 1) % m := by
  have hlt := Nat.mod_lt n hm
  rw [← Nat.mod_add_mod n m 1]
  split
  · next h => rw [h, Nat.mod_self]
  · next h => rw [Nat.mod_eq_of_lt (a := n % m + 1) (by omega)]

/-- The counter's own step, from a remainder to the next (rule R129). -/
theorem counter_step {KEYLEN : BitVec 9} (hpos : 0 < KEYLEN.toNat) (n : Nat) :
    (if BitVec.ofNat 9 (n % KEYLEN.toNat) + 1#9 = KEYLEN then 0#9
      else BitVec.ofNat 9 (n % KEYLEN.toNat) + 1#9) = BitVec.ofNat 9 ((n + 1) % KEYLEN.toNat) := by
  have hlt := Nat.mod_lt n hpos
  have hfull : BitVec.ofNat 9 (n % KEYLEN.toNat) + 1#9 = KEYLEN ↔
      n % KEYLEN.toNat + 1 = KEYLEN.toNat := by
    rw [← BitVec.ofNat_add, ← BitVec.toNat_inj, BitVec.toNat_ofNat]
    have := KEYLEN.isLt
    rw [Nat.mod_eq_of_lt (by omega)]
  simp only [hfull, ← wrappingSucc_mod hpos n, apply_ite (BitVec.ofNat 9), BitVec.ofNat_add]

/-- After `n` iterations the loop with the counter stands where the loop with the remainder does, and the
counter is the remainder (rule R129). -/
theorem ksaByCounter_eq (K : Buf) {KEYLEN : BitVec 9} (hpos : 0 < KEYLEN.toNat) (n : Nat) :
    ksaByCounter K KEYLEN n = {
      ksa := (List.range n).foldl (Ksa.round K KEYLEN) Ksa.start
      kp := BitVec.ofNat 9 (n % KEYLEN.toNat) } := by
  induction n with
  | zero => rw [Nat.zero_mod]; rfl
  | succ n ih =>
    have hidx : keyWriteIndex (BitVec.ofNat 9 (n % KEYLEN.toNat)) = keyIndex KEYLEN n := by
      have := (Nat.mod_lt n hpos).trans KEYLEN.isLt
      rw [keyWriteIndex_eq_ofNat, BitVec.toNat_ofNat, Nat.mod_eq_of_lt this, keyIndex]
    rw [ksaByCounter, List.range_succ, List.foldl_concat, List.foldl_concat, ← ksaByCounter, ih,
      KsaCounter.round]
    simp only [hidx, counter_step hpos, Ksa.round]

/-! ## SCHED and the source's schedule -/

/-- The S-box holds the source's table, entry by entry. -/
def Buf.Models (B : Buf) (T : Source.Table) : Prop := ∀ a : Byte, (readEntry B a).toNat = T a.toNat

theorem identityBuf_models : Buf.Models identityBuf fun n => n := fun a => by
  rw [readEntry_identityBuf]

/-- The two swaps agree (rules R125, R130). -/
theorem Buf.Models.swapEntries {B : Buf} {T : Source.Table} (h : Buf.Models B T) (a b : Byte) :
    Buf.Models (swapEntries B a b) (Source.exchange T a.toNat b.toNat) := fun c => by
  simp only [readEntry_swapEntries, Source.exchange, BitVec.toNat_inj, apply_ite BitVec.toNat,
    h a, h b, h c]

/-- The working values of SCHED are those of the source's loop. -/
structure Ksa.Models (p : Ksa) (q : Source.Build) : Prop where
  table : Buf.Models p.S q.S
  acc : p.j.toNat = q.j

/-- One iteration with the source's key byte keeps the two loops together (rules R125, R128). -/
theorem Ksa.Models.mix {p : Ksa} {q : Source.Build} {key : List Nat} {n : Nat} {k : Byte}
    (h : p.Models q) (hn : n < 256) (hk : k.toNat = key.getD (n % key.length) 0) :
    (p.mix (BitVec.ofNat 8 n) k).Models (Source.ksaStep key q n) := by
  have hidx : (BitVec.ofNat 8 n).toNat = n := (BitVec.toNat_ofNat ..).trans (Nat.mod_eq_of_lt hn)
  have hacc : (p.j + readEntry p.S (BitVec.ofNat 8 n) + k).toNat =
      (q.j + q.S n + key.getD (n % key.length) 0) % 256 := by
    rw [BitVec.toNat_add, BitVec.toNat_add, Nat.mod_add_mod, h.acc, h.table, hidx, hk]
  have hswap := h.table.swapEntries (BitVec.ofNat 8 n) (p.j + readEntry p.S (BitVec.ofNat 8 n) + k)
  rw [hidx, hacc] at hswap
  exact ⟨hswap, hacc⟩

/-- The key byte of iteration `n` is the source's `key[n mod len(key)]` (rules R125, R127). -/
theorem keyBytes_getD (e : Rc4Eng) (h : e.KEYLEN.toNat ≠ 0) (n : Nat) :
    (readEntry e.K (keyIndex e.KEYLEN n)).toNat = e.keyBytes.getD (n % e.keyBytes.length) 0 := by
  have hlt : n % e.KEYLEN.toNat < e.KEYLEN.toNat := Nat.mod_lt n (Nat.pos_of_ne_zero h)
  simp [Rc4Eng.keyBytes, keyIndex, hlt]

/-- SCHED's S-box is the source's `schedule` of the key in the buffer (rule R125). -/
theorem ksa_models_schedule (e : Rc4Eng) (h : e.KEYLEN.toNat ≠ 0) :
    Buf.Models (ksa e.K e.KEYLEN).S (Source.schedule e.keyBytes) := by
  rw [ksa, Source.schedule]
  apply Ksa.Models.table
  apply List.foldl_rel
  · exact ⟨identityBuf_models, rfl⟩
  · intro n hn p q hpq
    exact hpq.mix (List.mem_range.mp hn) (keyBytes_getD e h n)

/-- SCHED builds the source's table (rules R125, R128). -/
theorem exec_sched_models (s : State) (h : s.eng.KEYLEN.toNat ≠ 0) :
    ∃ B, exec .sched s = .next (s.keyedWith B) ∧ Buf.Models B (Source.schedule s.eng.keyBytes) :=
  ⟨_, exec_sched_loaded s h, ksa_models_schedule s.eng h⟩

/-- The bytes of a key that the buffer holds in order (rules R22, R56). -/
theorem keyBytes_eq_map {e : Rc4Eng} {key : List Byte} (hlen : e.KEYLEN.toNat = key.length)
    (hK : ∀ n (h : n < key.length), readEntry e.K (BitVec.ofNat 8 n) = key[n]) :
    e.keyBytes = key.map BitVec.toNat := by
  apply List.ext_getElem
  · simp [Rc4Eng.keyBytes, hlen]
  · intro n h _
    simp only [Rc4Eng.keyBytes, List.getElem_map, List.getElem_range]
    rw [hK]

/-- The source's schedule of a long key looks at its first 256 bytes only (rule R124). -/
theorem schedule_take {key : List Nat} (h : 256 ≤ key.length) :
    Source.schedule key = Source.schedule (key.take 256) := by
  have hstep : ∀ (p : Source.Build), ∀ n ∈ List.range 256,
      Source.ksaStep key p n = Source.ksaStep (key.take 256) p n := fun p n hn => by
    have hn := List.mem_range.mp hn
    have hlen : (key.take 256).length = 256 := List.length_take_of_le h
    simp only [Source.ksaStep, hlen, Nat.mod_eq_of_lt hn, Nat.mod_eq_of_lt (hn.trans_le h),
      List.getD_eq_getElem?_getD, List.getElem?_take_of_lt hn]
  rw [Source.schedule, Source.schedule, List.foldl_ext _ _ _ hstep]

/-! ## Commands one after another -/

theorem runCommands_append {cs : List Instr} {s t : State} (h : runCommands cs s = .next t)
    (ds : List Instr) : runCommands (cs ++ ds) s = runCommands ds t := by
  induction cs generalizing s with
  | nil => cases h; rfl
  | cons c cs ih =>
    obtain ⟨e, he⟩ := exec_completes c s
    rw [runCommands, he, andThen_next] at h
    rw [List.cons_append, runCommands, he, andThen_next, ih h]

theorem Rc4Eng.setErr_setErr (e : Rc4Eng) (f : ErrFlag) : (e.setErr f).setErr f = e.setErr f := by
  simp only [Rc4Eng.setErr, BitVec.or_assoc, BitVec.or_self]

/-- KLOADs into a full buffer set ERR.KLEN and nothing else, however many they are (rule R173). -/
theorem runCommands_kloads_full (d : Byte) (ds : List Byte) (s : State)
    (h : s.eng.KEYLEN = 256#9) :
    runCommands ((d :: ds).map .kload) s = .next (s.withEng (s.eng.setErr .klen)) := by
  induction ds generalizing d s with
  | nil => rw [List.map_cons, runCommands, exec_kload_full d s h]; rfl
  | cons d' ds ih =>
    rw [List.map_cons, runCommands, exec_kload_full d s h, andThen_next,
      ih d' (s.withEng (s.eng.setErr .klen)) h,
      State.withEng_eng, Rc4Eng.setErr_setErr, State.withEng_withEng]

/-- KCLR and a KLOAD of each byte of a long key: the buffer holds its first 256 bytes, and ERR.KLEN is set
(rule R124). -/
theorem runCommands_longKey (key : List Byte) (s : State) (hlong : 256 < key.length) :
    ∃ t, runCommands (.kclr :: key.map .kload) s = .next t ∧ t.eng.errSet .klen = true ∧
      t.eng.KEYLEN.toNat = 256 ∧ t.eng.keyBytes = (key.take 256).map BitVec.toNat := by
  have hlen : (key.take 256).length = 256 := List.length_take_of_le hlong.le
  obtain ⟨u, hu, -, hcount, hK⟩ := kloadsFillTheKeyInOrder (key.take 256) s hlen.le
  rw [hlen] at hcount
  obtain ⟨d, ds, hrest⟩ : ∃ d ds, key.drop 256 = d :: ds :=
    List.exists_cons_of_ne_nil (by simpa using hlong)
  have hsplit : Instr.kclr :: key.map .kload =
      (.kclr :: (key.take 256).map .kload) ++ (d :: ds).map .kload := by
    rw [List.cons_append, ← List.map_append, ← hrest, List.take_append_drop]
  refine ⟨u.withEng (u.eng.setErr .klen), ?_, ?_, hcount, ?_⟩
  · rw [hsplit, runCommands_append hu]
    exact runCommands_kloads_full d ds u ((keylen_eq_full_iff _).mpr hcount)
  · simp [errSet_setErr]
  · exact keyBytes_eq_map (hcount.trans hlen.symm) hK

/-- Commands that are neither KCLR nor KLOAD leave the key as it was (rule R131). -/
theorem runCommands_keeps_key (cs : List Instr) (s : State)
    (h : ∀ c ∈ cs, c ≠ .kclr ∧ ∀ d, c ≠ .kload d) :
    ∃ t, runCommands cs s = .next t ∧ t.eng.K = s.eng.K ∧ t.eng.KEYLEN = s.eng.KEYLEN := by
  induction cs generalizing s with
  | nil => exact ⟨s, rfl, rfl, rfl⟩
  | cons c cs ih =>
    obtain ⟨⟨hclr, hload⟩, hcs⟩ := List.forall_mem_cons.mp h
    obtain ⟨t, ht, -, hK, hKEYLEN, -⟩ := commandsChangeOnlyTheirFields c s
    obtain ⟨u, hu, huK, huKEYLEN⟩ := ih t hcs
    exact ⟨u, by rw [runCommands, ht, andThen_next, hu], huK.trans (hK hload),
      huKEYLEN.trans (hKEYLEN ⟨hclr, hload⟩)⟩

/-! ## The statements of 41_ksa.md -/

/-- Settles O19: the loop over bytes and the loop over numbers stay together, iteration by iteration. -/
theorem schedComputesTheSourceSchedule : Obligations.SchedComputesTheSourceSchedule := by
  intro s hpos _
  obtain ⟨B, hB, hmodels⟩ := exec_sched_models s (Nat.one_le_iff_ne_zero.mp hpos)
  exact ⟨_, hB, rfl, hmodels⟩

/-- Settles O20: the schedule is a bijection, and PEEK reads one entry of it. -/
theorem peeksAfterSchedAreAPermutation : Obligations.PeeksAfterSchedAreAPermutation := by
  intro s hne
  obtain ⟨hinj, hsurj⟩ := ksa_bijection s.eng.K s.eng.KEYLEN
  refine ⟨_, exec_sched_loaded s hne, fun v => ?_, fun a b u v hu hv h => ?_⟩
  · obtain ⟨a, ha⟩ := hsurj v
    exact ⟨a, _, exec_peek_keyed a _ (s.keyedWith_KEYED _), ha⟩
  · rw [dout_of_exec_peek (s.keyedWith_KEYED _) hu, dout_of_exec_peek (s.keyedWith_KEYED _) hv] at h
    exact hinj a b h

/-- Settles O21: the two loops read the same key byte in each iteration. -/
theorem scheduleDependsOnTheKeyAlone : Obligations.ScheduleDependsOnTheKeyAlone :=
  fun s s' hne hne' h => ⟨_, _, exec_sched_loaded s hne, exec_sched_loaded s' hne',
    congrArg Ksa.S (ksa_congr_keyStream h)⟩

/-- Settles O22: both loops, side by side, by induction on the iterations. -/
theorem keyCounterEqualsTheRemainder : Obligations.KeyCounterEqualsTheRemainder := by
  intro K KEYLEN hpos _
  refine ⟨fun n _ => ?_, by rw [ksaByCounter_eq K hpos, ksa]⟩
  rw [ksaByCounter_eq K hpos, BitVec.toNat_ofNat,
    Nat.mod_eq_of_lt ((Nat.mod_lt n hpos).trans KEYLEN.isLt)]

/-- Settles O23: the buffer holds the first 256 bytes, which are all that the source's schedule of the full
key looks at. -/
theorem longKeysScheduleAsTheSource : Obligations.LongKeysScheduleAsTheSource := by
  intro key s hlong
  have htake := schedule_take (key := key.map BitVec.toNat) (by simpa using hlong.le)
  obtain ⟨t, ht, herr, hcount, hbytes⟩ := runCommands_longKey key s hlong
  obtain ⟨B, hB, hmodels⟩ := exec_sched_models t (by rw [hcount]; decide)
  rw [hbytes, List.map_take, ← htake] at hmodels
  refine ⟨htake, t.keyedWith B, ?_, herr, hcount, hmodels⟩
  rw [← List.cons_append, runCommands_append ht, runCommands, hB]
  rfl

/-- Settles O24: SCHED's results depend on the key alone, and the commands between leave it. -/
theorem rekeyRestoresTheSchedule : Obligations.RekeyRestoresTheSchedule := by
  intro s cs hne hcs
  have hfirst := exec_sched_loaded s hne
  generalize hB : (ksa s.eng.K s.eng.KEYLEN).S = B at hfirst
  obtain ⟨u, hu, hK, hKEYLEN⟩ := runCommands_keeps_key cs (s.keyedWith B) hcs
  rw [State.keyedWith_K] at hK
  rw [State.keyedWith_KEYLEN] at hKEYLEN
  have hagain := exec_sched_loaded u (hKEYLEN ▸ hne)
  rw [hK, hKEYLEN, hB] at hagain
  exact ⟨_, u, _, hfirst, hu, hagain, rfl, rfl, rfl, hK, hKEYLEN⟩

/-- Settles O25: reading after a swap is reading at the transposed index. -/
theorem swapExchangesAndKeepsBijections : Obligations.SwapExchangesAndKeepsBijections := fun S a b =>
  ⟨by rw [readEntry_swapEntries_eq_swap, Equiv.swap_apply_left],
    by rw [readEntry_swapEntries_eq_swap, Equiv.swap_apply_right],
    fun c ha hb => by rw [readEntry_swapEntries_eq_swap, Equiv.swap_apply_of_ne_of_ne ha hb],
    swapEntries_self S a, fun h => swapEntries_bijection h a b⟩

/-- Settles O15: KCLR's one effect, and its word has DATA 0. -/
theorem kclrEmptiesTheKey : Obligations.KclrEmptiesTheKey :=
  ⟨rfl, fun _ => rfl, fun _ hopc => decode_error_of_strayData (by rw [hopc]; decide)⟩

/-- Settles O16: the two branches of KLOAD. -/
theorem kloadAppendsOneByte : Obligations.KloadAppendsOneByte := by
  intro d s _
  have hword := (Laws.EncodesOpcodeAndByte.kload d).2
  refine ⟨by simpa [Instr.fields] using hword, fun hroom => ?_, fun hfull => ?_⟩
  · obtain ⟨K, KEYLEN, hexec, hcount, hK⟩ := exec_kload_append d s hroom
    exact ⟨_, hexec, rfl, hcount, hK⟩
  · exact exec_kload_full d s ((keylen_eq_full_iff _).mpr hfull)

/-- Settles O18: the empty key takes SCHED's failing branch, and KCLR empties the key. -/
theorem schedRejectsTheEmptyKey : Obligations.SchedRejectsTheEmptyKey := by
  refine ⟨fun s hempty => exec_sched_empty s ((keylen_eq_zero_iff _).mpr hempty), fun s => ?_⟩
  have hempty := exec_sched_empty (s.withEng { s.eng with KEYLEN := 0#9, KEYED := false }) rfl
  exact ⟨_, congrArg (andThen · .next) hempty, by simp [errSet_setErr], rfl⟩

end Sys2Proof.Machine

namespace Sys2Proof.Machine

/-! ## PROC, and PROC of each byte in turn -/

/-- The engine with the PRGA's part of the state and the result byte replaced: all that PROC writes (rule
R141). -/
def Rc4Eng.withPrga (e : Rc4Eng) (p : Prga) (DOUT : Byte) : Rc4Eng :=
  { e with S := p.S, i := p.i, j := p.j, DOUT := DOUT }

section withPrga
variable (e : Rc4Eng) (p q : Prga) (x y : Byte)

@[simp] theorem Rc4Eng.withPrga_prga : (e.withPrga p x).prga = p := rfl
@[simp] theorem Rc4Eng.withPrga_DOUT : (e.withPrga p x).DOUT = x := rfl
@[simp] theorem Rc4Eng.withPrga_K : (e.withPrga p x).K = e.K := rfl
@[simp] theorem Rc4Eng.withPrga_KEYLEN : (e.withPrga p x).KEYLEN = e.KEYLEN := rfl
@[simp] theorem Rc4Eng.withPrga_KEYED : (e.withPrga p x).KEYED = e.KEYED := rfl
@[simp] theorem Rc4Eng.withPrga_ERR : (e.withPrga p x).ERR = e.ERR := rfl
@[simp] theorem Rc4Eng.withPrga_withPrga : (e.withPrga p x).withPrga q y = e.withPrga q y := rfl

end withPrga

theorem Prga.next_S (p : Prga) : p.next.S = swapEntries p.S p.next.i p.next.j := rfl

/-- PROC with KEYED = 1 takes one PRGA step (rule R141). -/
theorem exec_proc_withPrga (d : Byte) {s : State} (hk : s.eng.KEYED = true) :
    exec (.proc d) s =
      .next (s.withEng (s.eng.withPrga s.eng.prga.next (d ^^^ s.eng.prga.next.keystream))) :=
  exec_proc_keyed d s hk

/-- The bytes that the stream from `p` makes of a message: each byte XOR the keystream byte of its own PRGA
step (rules R140, R141). -/
def Prga.crypt : Prga → List Byte → List Byte
  | _, [] => []
  | p, b :: bs => (b ^^^ p.next.keystream) :: p.next.crypt bs

theorem Prga.length_crypt (p : Prga) (msg : List Byte) : (p.crypt msg).length = msg.length := by
  induction msg generalizing p with
  | nil => rfl
  | cons b bs ih => rw [crypt, List.length_cons, List.length_cons, ih]

/-- XOR with the same keystream twice gives the message back (rule R145). -/
theorem Prga.crypt_crypt (p : Prga) (msg : List Byte) : p.crypt (p.crypt msg) = msg := by
  induction msg generalizing p with
  | nil => rfl
  | cons b bs ih => rw [crypt, crypt, ih, xor_cancel_right]

/-- PROC of each byte, from KEYED = 1: the stream's bytes come out, the PRGA has taken a step for each, DOUT
holds the last of them, and nothing else has changed (rules R141, R146). -/
theorem procAll_keyed (msg : List Byte) {s : State} (hk : s.eng.KEYED = true) :
    procAll msg s = some (s.eng.prga.crypt msg, s.withEng (s.eng.withPrga
      (Prga.next^[msg.length] s.eng.prga) ((s.eng.prga.crypt msg).getLastD s.eng.DOUT))) := by
  induction msg generalizing s with
  | nil => rfl
  | cons b bs ih =>
    have hrest := ih (s := s.withEng (s.eng.withPrga s.eng.prga.next
      (b ^^^ s.eng.prga.next.keystream))) ((Rc4Eng.withPrga_KEYED ..).trans hk)
    rw [procAll, exec_proc_withPrga b hk]
    simp only [hrest, Option.map_some, State.withEng_eng, State.withEng_withEng, Rc4Eng.withPrga_prga,
      Rc4Eng.withPrga_DOUT, Rc4Eng.withPrga_withPrga, Prga.crypt, List.getLastD_cons, List.length_cons,
      Function.iterate_succ_apply]

/-- PROC of each byte that the same stream made of a message gives the message back (rule R145). -/
theorem procAll_crypt (msg : List Byte) {s : State} {p : Prga} (hk : s.eng.KEYED = true)
    (hp : s.eng.prga = p) :
    procAll (p.crypt msg) s = some (msg, s.withEng (s.eng.withPrga
      (Prga.next^[msg.length] p) (msg.getLastD s.eng.DOUT))) := by
  rw [procAll_keyed _ hk, hp, Prga.crypt_crypt, Prga.length_crypt]

/-- `m` PRGA steps add `m` to `i` (rules R142, R143). -/
theorem Prga.iterate_next_i (p : Prga) (m : Nat) :
    (Prga.next^[m] p).i = p.i + BitVec.ofNat 8 m := by
  induction m with
  | zero => simp
  | succ m ih =>
    rw [Function.iterate_succ_apply', Prga.next_i, ih, BitVec.ofNat_add, BitVec.add_assoc]

/-! ## PROC and the source's keystream -/

/-- The PRGA's part of the state is the source's stream. -/
structure Prga.Models (p : Prga) (q : Source.Stream) : Prop where
  table : Buf.Models p.S q.S
  i : p.i.toNat = q.i
  j : p.j.toNat = q.j

/-- One PRGA step is the source's (rules R140, R141). -/
theorem Prga.Models.next {p : Prga} {q : Source.Stream} (h : p.Models q) :
    p.next.Models (Source.advance q) := by
  have hi : p.next.i.toNat = (q.i + 1) % 256 := by
    rw [Prga.next_i, BitVec.toNat_add, h.i]; rfl
  have hj : p.next.j.toNat = (q.j + q.S ((q.i + 1) % 256)) % 256 := by
    rw [Prga.next_j, ← Prga.next_i, BitVec.toNat_add, h.j, h.table, hi]
  have hswap := h.table.swapEntries p.next.i p.next.j
  rw [hi, hj] at hswap
  exact ⟨hswap, hi, hj⟩

/-- The keystream byte is looked up at the same index (rules R140, R141). -/
theorem Prga.Models.keystream {p : Prga} {q : Source.Stream} (h : p.Models q) :
    p.keystream.toNat = Source.keystream q := by
  rw [Prga.keystream, h.table, BitVec.toNat_add, h.table, h.table, h.i, h.j, Source.keystream]

/-- The stream's bytes are the source's output (rule R140). -/
theorem Prga.Models.crypt {p : Prga} {q : Source.Stream} (h : p.Models q) (msg : List Byte) :
    (p.crypt msg).map BitVec.toNat = Source.process q (msg.map BitVec.toNat) := by
  induction msg generalizing p q with
  | nil => rfl
  | cons b bs ih =>
    rw [Prga.crypt, List.map_cons, List.map_cons, Source.process, BitVec.toNat_xor, h.next.keystream,
      ih h.next]

/-! ## The statements of 42_prga.md -/

/-- Settles O30: the output has the message's length, and PROC writes neither ERR nor KEYED. -/
theorem procYieldsOneByteEach : Obligations.ProcYieldsOneByteEach := by
  intro msg s hk
  refine ⟨_, _, procAll_keyed msg hk, Prga.length_crypt _ msg, Rc4Eng.withPrga_ERR ..,
    (Rc4Eng.withPrga_KEYED ..).trans hk, ?_⟩
  rintro rfl
  rfl

/-- Settles O31: SCHED leaves i at 0, and each PROC adds 1. -/
theorem indexCountsProcsModulo256 : Obligations.IndexCountsProcsModulo256 := by
  intro msg s hne
  obtain ⟨B, hB, -⟩ := exec_sched_models s hne
  refine ⟨_, _, _, hB, procAll_keyed msg (s.keyedWith_KEYED B), ?_⟩
  have hi := Prga.iterate_next_i (s.keyedWith B).eng.prga msg.length
  rw [Rc4Eng.prga_i, State.keyedWith_i, BitVec.zero_add] at hi
  exact (congrArg BitVec.toNat hi).trans (BitVec.toNat_ofNat ..)

/-- Settles O32: SCHED builds the source's table, and each PROC is one iteration of the source's loop. -/
theorem procComputesTheSourceKeystream : Obligations.ProcComputesTheSourceKeystream := by
  intro msg s hpos _
  obtain ⟨B, hB, hmodels⟩ := exec_sched_models s (Nat.one_le_iff_ne_zero.mp hpos)
  have hbegin : (s.keyedWith B).eng.prga.Models (Source.begin (Source.schedule s.eng.keyBytes)) :=
    ⟨hmodels, rfl, rfl⟩
  exact ⟨_, _, _, hB, procAll_keyed msg (s.keyedWith_KEYED B), hbegin.crypt msg⟩

/-- Settles O33: PROC leaves the key, so the second SCHED starts the same stream, and XOR with it twice is
the identity. -/
theorem decryptingRestoresTheMessage : Obligations.DecryptingRestoresTheMessage := by
  intro msg s hne
  obtain ⟨B, hB⟩ : ∃ B, (ksa s.eng.K s.eng.KEYLEN).S = B := ⟨_, rfl⟩
  have hsched {u : State} (hK : u.eng.K = s.eng.K) (hKEYLEN : u.eng.KEYLEN = s.eng.KEYLEN) :
      exec .sched u = .next (u.keyedWith B) := by
    rw [exec_sched_loaded u (hKEYLEN ▸ hne), hK, hKEYLEN, hB]
  exact ⟨_, _, _, _, _, hsched rfl rfl, procAll_keyed msg (s.keyedWith_KEYED B),
    hsched (Rc4Eng.withPrga_K ..) (Rc4Eng.withPrga_KEYLEN ..),
    procAll_crypt msg (State.keyedWith_KEYED _ B) rfl⟩

/-- Settles O26: PROC's two branches; the step's fields are sums of bytes, which wrap at 256. -/
theorem procTakesOnePrgaStep : Obligations.ProcTakesOnePrgaStep := by
  intro d s
  have hword := (Laws.EncodesOpcodeAndByte.proc d).2
  refine ⟨by simpa [Instr.fields] using hword, exec_proc_unkeyed d s, fun hk => ?_⟩
  exact ⟨_, exec_proc_withPrga d hk, rfl, BitVec.toNat_add .., BitVec.toNat_add ..,
    (readEntry_next · s.eng.prga), _, BitVec.toNat_add .., rfl⟩

/-- Settles O27: swapping an entry with itself changes nothing, and both summands of the lookup are that
entry. -/
theorem procSelfSwapKeepsTheSbox : Obligations.ProcSelfSwapKeepsTheSbox := by
  intro d s hk hself
  have hj : s.eng.prga.next.j = s.eng.prga.next.i := hself
  have hS : s.eng.prga.next.S = s.eng.S := by
    rw [Prga.next_S, hj, swapEntries_self, Rc4Eng.prga_S]
  refine ⟨_, exec_proc_withPrga d hk, hS, hj.symm, ?_⟩
  rw [State.withEng_eng, Rc4Eng.withPrga_DOUT, Prga.keystream, hS, hj, Prga.next_i, Rc4Eng.prga_i]

/-- Settles O28: the two PRGA steps are one, and XOR with the input byte leaves its keystream byte. -/
theorem procDependsOnStreamAndInputAlone : Obligations.ProcDependsOnStreamAndInputAlone := by
  intro d d' s s' hk hk' hS hi hj
  have hprga : s.eng.prga = s'.eng.prga := by rw [Rc4Eng.prga, hS, hi, hj, Rc4Eng.prga]
  have hproc := exec_proc_withPrga d hk
  rw [hprga] at hproc
  refine ⟨_, _, hproc, exec_proc_withPrga d' hk', rfl, rfl, rfl, ?_⟩
  simp only [State.withEng_eng, Rc4Eng.withPrga_DOUT, xor_xor_cancel_comm]

/-- Settles O29: PEEK's two branches. -/
theorem peekReadsOneEntry : Obligations.PeekReadsOneEntry := by
  intro d s
  have hword := (Laws.EncodesOpcodeAndByte.peek d).2
  exact ⟨by simpa [Instr.fields] using hword, exec_peek_unkeyed d s, exec_peek_keyed d s⟩

end Sys2Proof.Machine

namespace Sys2Proof.Machine

/-! ## What a step does to the error flags

An engine step can only add flags, a RegWrite to ERR is the one host access that takes any away, and a reset
clears them all (rules R107, R171, R177). -/

theorem errSet_of_err_or {e e' : Rc4Eng} {m : BitVec 5} (h : e'.ERR = e.ERR ||| m) {f : ErrFlag}
    (hf : e.errSet f = true) : e'.errSet f = true := by
  rw [Rc4Eng.errSet] at hf
  rw [Rc4Eng.errSet, h, BitVec.getLsbD_or, hf, Bool.true_or]

/-- The engine's turn adds flags to ERR and takes none away (rule R107). -/
theorem engineTurn_addsFlags {s t : State} (h : engineTurn s = .next t) :
    ∃ m, t.eng.ERR = s.eng.ERR ||| m := by
  cases hb : s.eng.BUSY with
  | false =>
    cases (engineTurn_idle hb).symm.trans h
    exact ⟨0#5, BitVec.or_zero.symm⟩
  | true =>
    have hstep : engineStep s = .next t := (if_pos hb).symm.trans h
    cases hd : decode s.eng.PEND with
    | ok c =>
      obtain ⟨e, he⟩ := exists_effect c s.eng
      obtain ⟨m, hm, -⟩ := he.addsFlags
      cases (engineStep_of_effect hd he).symm.trans hstep
      exact ⟨m, hm⟩
    | error why =>
      cases (engineStep_of_illegal hd).symm.trans hstep
      exact ⟨ErrFlag.ill.bit, rfl⟩

theorem engineTurn_keeps_errSet {s t : State} {f : ErrFlag} (h : engineTurn s = .next t)
    (hf : s.eng.errSet f = true) : t.eng.errSet f = true :=
  have ⟨_, hm⟩ := engineTurn_addsFlags h
  errSet_of_err_or hm hf

/-- The engine's turn on a latched command that fails leaves its flag set (rules R106, R171). -/
theorem step_engine_sets_flag {s : State} {f : ErrFlag} {rest : List Event} (hb : s.eng.BUSY = true)
    (hs : s.script = .engine :: rest) (hfails : s.eng.FailsWith f) :
    ∃ u, step s = .next u ∧ u.eng.errSet f = true := by
  have hset : (s.eng.setErr f).errSet f = true := by simp [errSet_setErr]
  exact ⟨_, (step_engine hb hs).trans (engineStep_of_failsWith hfails), hset⟩

/-- A RegWrite takes a flag away only at ERR, with the flag's bit 1 (rules R52, R177). -/
theorem errSet_regWrite {e : Rc4Eng} {f : ErrFlag} (hf : e.errSet f = true) (off : Offset) (v : Word) :
    (e.regWrite off v).errSet f = true ∨ (regAt off = .err ∧ v.getLsbD f.code.val = true) := by
  obtain ⟨-, -, h⟩ | ⟨-, -, h⟩ | ⟨hreg, h⟩ | ⟨-, -, h⟩ := regWrite_cases e off v <;> rw [h]
  · exact .inl hf
  · exact .inl (errSet_of_err_or (Rc4Eng.setErr_ERR e .ovr) hf)
  · rw [errSet_clearErr, hf, Bool.true_and]
    cases hv : v.getLsbD f.code.val with
    | false => exact .inl rfl
    | true => exact .inr ⟨hreg, rfl⟩
  · exact .inl hf

/-- A host access takes a flag away only as a write to ERR with the flag's bit 1 (rules R58, R177). -/
theorem hostAccess_errSet {a : Access} {s t : State} {f : ErrFlag} (h : hostAccess a s = .next t)
    (hf : s.eng.errSet f = true) :
    t.eng.errSet f = true ∨
    ∃ v, a.off = 0x08#6 ∧ a.kind = .write v ∧ v.getLsbD f.code.val = true := by
  obtain ⟨-, -, hr⟩ | ⟨hok, v, hv, hw⟩ | ⟨-, hbad⟩ := hostAccess_cases a s
  · cases hr.symm.trans h
    exact .inl hf
  · cases hw.symm.trans h
    exact (errSet_regWrite hf a.off v).imp_right fun ⟨hreg, hbit⟩ =>
      ⟨v, off_of_regAt_err hok hreg, hv, hbit⟩
  · cases hbad.symm.trans h

/-! ## Events that the core carries out -/

/-- A clean event is carried out, and leaves the rest of the script alone (rules R170, R180). -/
theorem performEvent_of_clean {ev : Event} (hev : ev.clean = true) (s : State) :
    ∃ t, performEvent ev s = .next t ∧ t.script = s.script := by
  cases ev with
  | host a =>
    obtain ⟨-, -, h⟩ | ⟨-, v, -, h⟩ | ⟨hbad, -⟩ := hostAccess_cases a s
    · exact ⟨_, h, rfl⟩
    · exact ⟨_, h, rfl⟩
    · cases hbad.symm.trans hev
  | engine =>
    obtain ⟨e, h⟩ := engineTurn_next s
    exact ⟨_, h, rfl⟩
  | reset S K PEND => exact ⟨_, rfl, rfl⟩

/-- A machine whose script has no bad access takes a step, and its script has none after it (rule R205). -/
theorem State.Safe.step {s : State} (hsafe : s.Safe) : ∃ t, step s = .next t ∧ t.Safe := by
  cases hs : s.script with
  | nil =>
    obtain ⟨e, h⟩ := engineTurn_next s
    exact ⟨_, (step_nil hs).trans h, hsafe⟩
  | cons ev rest =>
    rw [State.Safe, hs] at hsafe
    obtain ⟨hev, hrest⟩ := List.forall_mem_cons.mp hsafe
    obtain ⟨t, h, ht⟩ := performEvent_of_clean hev { s with script := rest }
    refine ⟨t, (step_cons hs).trans h, ?_⟩
    rw [State.Safe, ht]
    exact hrest

/-! ## Platforms -/

/-- What a step of the machine at place `k` leaves of the platform (rule R188). -/
theorem stepInstance_eq_some_iff {ps qs : List Instance} {k : Nat} :
    stepInstance ps k = some qs ↔
      ∃ p t, ps[k]? = some p ∧ step p.machine = .next t ∧ qs = ps.set k { p with machine := t } := by
  unfold stepInstance
  cases hp : ps[k]? with
  | none => simp
  | some p => cases ht : step p.machine <;> simp [ht, eq_comm]

/-! ## The statements of 60_exceptions.md -/

/-- Settles O11: the engine's turn only adds flags, and a host access takes one away only by a write to ERR. -/
theorem flagsAreSticky : Obligations.FlagsAreSticky := by
  intro s t f h hf
  cases hs : s.script with
  | nil =>
    rw [step_nil hs] at h
    exact .inl (engineTurn_keeps_errSet h hf)
  | cons ev rest =>
    rw [step_cons hs] at h
    cases ev with
    | host a =>
      exact (hostAccess_errSet (s := { s with script := rest }) h hf).imp_right fun ⟨v, hoff, hv, hbit⟩ =>
        .inl ⟨a, v, rest, rfl, hoff, hv, hbit⟩
    | engine => exact .inl (engineTurn_keeps_errSet (s := { s with script := rest }) h hf)
    | reset S K PEND => exact .inr (.inr ⟨S, K, PEND, rest, rfl⟩)

/-- Settles O47, by induction on the number of steps. -/
theorem cleanScriptsNeverStop : Obligations.CleanScriptsNeverStop := by
  intro s k hsafe
  induction k generalizing s with
  | zero => exact ⟨s, rfl, hsafe⟩
  | succ k ih =>
    obtain ⟨t, hstep, ht⟩ := hsafe.step
    rw [runSteps_of_step hstep]
    exact ih t ht

/-- Settles O12: the write clears flags and touches nothing that the latched command's check looks at, so its
engine step fails as before and sets its flag. -/
theorem errWriteClearsTheWrittenFlags : Obligations.ErrWriteClearsTheWrittenFlags := by
  intro s v rest hs
  have hstep : step s = .next { s with script := rest, eng := s.eng.clearErr v } :=
    step_write (by decide) hs
  exact ⟨_, hstep, rfl, errSet_clearErr s.eng v, fun _ _ hrest hb hfails =>
    step_engine_sets_flag hb hrest hfails⟩

/-- Settles O55: a step writes place `k` alone, and reads place `k` alone. -/
theorem instancesDoNotInteract : Obligations.InstancesDoNotInteract := by
  intro ps qs k h
  obtain ⟨p, t, hp, hstep, rfl⟩ := stepInstance_eq_some_iff.mp h
  refine ⟨List.length_set, fun m hm => List.getElem?_set_ne hm.symm, fun ps' hps' => ?_⟩
  have hp' : ps'[k]? = some p := hps'.trans hp
  refine ⟨_, stepInstance_eq_some_iff.mpr ⟨p, t, hp', hstep, rfl⟩, ?_⟩
  rw [List.getElem?_set_self', List.getElem?_set_self', hp, hp']

end Sys2Proof.Machine

namespace Sys2Proof.Machine

/-! ## What the polling driver's commands do

`doutReads` is what the driver's reads of DOUT give, by the commands' own effects. `runSteps_driver` ties the
driver's script to it and to `runCommands`, for every list of commands and any polls; a session is then a
matter of commands alone. -/

/-- The values of DOUT that the driver reads after its commands: one after each PROC or PEEK (rule R214). -/
def doutReads : List Instr → State → List Byte
  | [], _ => []
  | c :: cs, s =>
    (resultEvents c).map (fun _ => (engineAfter c s).DOUT) ++ doutReads cs (s.withEng (engineAfter c s))

theorem doutReads_cons {c : Instr} {s t : State} (h : exec c s = .next t) (cs : List Instr) :
    doutReads (c :: cs) s = (resultEvents c).map (fun _ => t.eng.DOUT) ++ doutReads cs t := by
  cases (exec_eq_engineAfter c s).symm.trans h
  rfl

theorem doutReads_append {cs : List Instr} {s t : State} (h : runCommands cs s = .next t)
    (ds : List Instr) : doutReads (cs ++ ds) s = doutReads cs s ++ doutReads ds t := by
  induction cs generalizing s with
  | nil => cases h; rfl
  | cons c cs ih =>
    obtain ⟨e, he⟩ := exec_completes c s
    rw [runCommands, he, andThen_next] at h
    rw [List.cons_append, doutReads_cons he, doutReads_cons he, ih h, List.append_assoc]

/-- Commands that give no result are followed by no read of DOUT (rule R214). -/
theorem doutReads_eq_nil {cs : List Instr} (h : ∀ c ∈ cs, resultEvents c = []) (s : State) :
    doutReads cs s = [] := by
  induction cs generalizing s with
  | nil => rfl
  | cons c cs ih =>
    obtain ⟨hc, hcs⟩ := List.forall_mem_cons.mp h
    rw [doutReads, hc, ih hcs]
    rfl

/-- PROC of each byte, as commands of the driver (rules R145, R146). -/
theorem runCommands_of_procAll {msg out : List Byte} {s u : State} (h : procAll msg s = some (out, u)) :
    runCommands (msg.map .proc) s = .next u ∧ doutReads (msg.map .proc) s = out := by
  induction msg generalizing s out with
  | nil => cases h; exact ⟨rfl, rfl⟩
  | cons b bs ih =>
    obtain ⟨e, he⟩ := exec_completes (.proc b) s
    simp only [procAll, he, Option.map_eq_some_iff, Prod.mk.injEq] at h
    obtain ⟨⟨out', u'⟩, hrest, rfl, rfl⟩ := h
    obtain ⟨hrun, hout⟩ := ih hrest
    rw [List.map_cons, runCommands, doutReads_cons he, he, hout]
    exact ⟨hrun, rfl⟩

/-! ## The driver's script -/

/-- A command's effect neither reads nor writes BUSY and PEND (rule R104). -/
theorem CommandEffect.withLatch {e e' : Rc4Eng} {c : Instr} (h : CommandEffect e c e') (b : Bool)
    (p : Word) : CommandEffect (e.withLatch b p e.ERR) c (e'.withLatch b p e'.ERR) := by
  cases h with
  | nop => exact .nop
  | kclr => exact .kclr
  | kloadFull h => exact .kloadFull h
  | kloadRoom h => exact .kloadRoom h
  | schedEmpty h => exact .schedEmpty h
  | schedKey h => exact .schedKey h
  | procUnkeyed h => exact .procUnkeyed h
  | procKeyed h => exact .procKeyed h
  | peekUnkeyed h => exact .peekUnkeyed h
  | peekKeyed h => exact .peekKeyed h

theorem CommandEffect.busy_eq {e e' : Rc4Eng} {c : Instr} (h : CommandEffect e c e') :
    e'.BUSY = e.BUSY := by
  cases h <;> rfl

/-- The engine step of a command latched by an idle engine leaves the command's effect, and its word in PEND
(rules R101, R104). -/
theorem engineStep_latched {e e' : Rc4Eng} {c : Instr} (hc : CommandEffect e c e') (hb : e.BUSY = false)
    {t : State} (ht : t.eng = e.latch (encode c)) :
    engineStep t = .next (t.withEng { e' with PEND := encode c }) := by
  have hd : decode t.eng.PEND = .ok c := by rw [ht]; exact decode_encode c
  have heff : CommandEffect t.eng c (e'.withLatch true (encode c) e'.ERR) := by
    rw [ht]; exact hc.withLatch true (encode c)
  rw [engineStep_of_effect hd heff, ← hb, ← hc.busy_eq]
  rfl

/-- With a command latched, the engine's turn is its step (rule R102). -/
theorem engineTurn_busy {s : State} (hb : s.eng.BUSY = true) : engineTurn s = engineStep s := if_pos hb

/-- What the driver's reads tell the host: their reads of DOUT give the bytes `out`, and none is of ERR. -/
structure DriverReplies (rs : List Reply) (out : List Byte) : Prop where
  outputs : outputOf rs = out
  no_err : ∀ r ∈ rs, r.off ≠ offErr

theorem DriverReplies.append {rs rs' : List Reply} {out out' : List Byte} (h : DriverReplies rs out)
    (h' : DriverReplies rs' out') : DriverReplies (rs ++ rs') (out ++ out') where
  outputs := by
    rw [← h.outputs, ← h'.outputs, outputOf, List.filter_append, List.map_append, outputOf, outputOf]
  no_err := List.forall_mem_append.mpr ⟨h.no_err, h'.no_err⟩

theorem DriverReplies.of_status {rs : List Reply} (h : ∀ r ∈ rs, r.off = offStatus) :
    DriverReplies rs [] where
  outputs := by
    have hnone : rs.filter (fun r => r.off == offDout) = [] :=
      List.filter_eq_nil_iff.mpr fun r hr => by rw [h r hr]; decide
    rw [outputOf, hnone, List.map_nil]
  no_err r hr := by rw [h r hr]; decide

theorem DriverReplies.of_dout (e : Rc4Eng) : DriverReplies [e.reply offDout] [e.DOUT] where
  outputs := by
    have hdata : (e.reply offDout).data.setWidth 8 = e.DOUT := by
      have hcontent : (e.reply offDout).data = e.DOUT.setWidth 32 := rfl
      rw [hcontent]; simp
    exact congrArg (fun d => [d]) hdata
  no_err := List.forall_mem_singleton.mpr (by decide : offDout ≠ offErr)

theorem resultEvents_cases (c : Instr) :
    resultEvents c = [] ∨ resultEvents c = [readEvent offDout] := by
  cases c with
  | nop | kclr | kload _ | sched => exact .inl rfl
  | proc _ | peek _ => exact .inr rfl

/-- The driver's read of a command's result gives DOUT (rules R52, R214). -/
theorem runSteps_results {c : Instr} {s : State} {rest : List Event}
    (hs : s.script = resultEvents c ++ rest) :
    ∃ rs, DriverReplies rs ((resultEvents c).map fun _ => s.eng.DOUT) ∧
      runSteps (resultEvents c).length s =
        .next { s with script := rest, replies := s.replies ++ rs } := by
  obtain h | h := resultEvents_cases c <;> rw [h] at hs ⊢
  · exact ⟨[], .of_status nofun, runSteps_reads (offs := []) nofun hs⟩
  · exact ⟨_, .of_dout s.eng, runSteps_reads (offs := [offDout]) (by decide) hs⟩

theorem commandEvents_length (w : Word) (p : Nat) : (commandEvents w p).length = p + 3 := by
  simp [commandEvents]

/-- The driver's part for one command, from an idle engine: the engine that the command's effect leaves, with
its word in PEND, and DOUT read if the command gives a result (rule R214). -/
theorem runSteps_driverCommand {c : Instr} {n : Nat} {e e' : Rc4Eng} {p : Word} {s : State}
    {rest : List Event} (he : CommandEffect e c e') (hb : e.BUSY = false)
    (heng : s.eng = { e with PEND := p })
    (hs : s.script = commandEvents (encode c) n ++ (resultEvents c ++ rest)) :
    ∃ rs, DriverReplies rs ((resultEvents c).map fun _ => e'.DOUT) ∧
      runSteps (n + 3 + (resultEvents c).length) s = .next { s with
        eng := { e' with PEND := encode c }, script := rest, replies := s.replies ++ rs } := by
  have hcommand := runSteps_command (heng ▸ hb) hs fun t ht =>
    engineStep_latched he hb (by rw [ht, heng]; rfl)
  generalize hpolled : List.replicate n _ ++ [_] = polled at hcommand
  have hstatus : ∀ r ∈ polled, r.off = offStatus := by
    rw [← hpolled]
    exact List.forall_mem_append.mpr
      ⟨fun r hr => by rw [List.eq_of_mem_replicate hr]; rfl, List.forall_mem_singleton.mpr rfl⟩
  obtain ⟨rs, hrs, hresult⟩ := runSteps_results (c := c) (s := { s with
    eng := { e' with PEND := encode c }
    script := resultEvents c ++ rest
    replies := s.replies ++ polled }) rfl
  refine ⟨polled ++ rs, (DriverReplies.of_status hstatus).append hrs, ?_⟩
  rw [runSteps_add hcommand, hresult, List.append_assoc]

/-- The driver's script for a list of commands leaves the engine that the commands' own effects leave, but for
PEND, and its reads give the values of `doutReads`, however often it polls (rules R105, R214). `v` is the
machine that the commands' effects are taken from; its engine is that of `s`, but for PEND. -/
theorem runSteps_driver {cs : List Instr} {polls : List Nat} {s v u : State} {p : Word}
    {rest : List Event} (hv : s.eng = { v.eng with PEND := p }) (hb : v.eng.BUSY = false)
    (hs : s.script = driverScript cs polls ++ rest) (hrun : runCommands cs v = .next u) :
    ∃ p' rs, DriverReplies rs (doutReads cs v) ∧
      runSteps (driverScript cs polls).length s = .next { s with
        eng := { u.eng with PEND := p' }, script := rest, replies := s.replies ++ rs } := by
  induction cs generalizing s v p polls with
  | nil =>
    cases hrun
    cases hs
    refine ⟨p, [], .of_status nofun, ?_⟩
    rw [← hv, List.append_nil]
    rfl
  | cons c cs ih =>
    obtain ⟨e, he⟩ := exists_effect c v.eng
    have hexec := exec_of_effect he
    rw [runCommands, hexec, andThen_next] at hrun
    rw [driverScript, List.append_assoc, List.append_assoc] at hs
    obtain ⟨rs, hrs, hcommand⟩ := runSteps_driverCommand he hb hv hs
    obtain ⟨p', rs', hrs', hrest⟩ := ih (polls := polls.tail) (p := encode c) (v := v.withEng e)
      (s := { s with
        eng := { e with PEND := encode c }
        script := driverScript cs polls.tail ++ rest
        replies := s.replies ++ rs }) rfl (he.busy_eq.trans hb) rfl hrun
    refine ⟨p', rs ++ rs', ?_, ?_⟩
    · rw [doutReads_cons hexec]
      exact hrs.append hrs'
    · rw [driverScript, List.length_append, List.length_append, commandEvents_length, ← Nat.add_assoc,
        runSteps_add hcommand, hrest, List.append_assoc]

/-! ## Sessions -/

/-- The read of ERR that ends a session is its only one (rule R212). -/
theorem errorOf_append_err {rs : List Reply} {out : List Byte} (h : DriverReplies rs out) (e : Rc4Eng) :
    errorOf (rs ++ [e.reply offErr]) = e.ERR.setWidth 32 := by
  have hfilter : (rs ++ [e.reply offErr]).filter (fun r => r.off == offErr) = [e.reply offErr] := by
    have hnone : rs.filter (fun r => r.off == offErr) = [] :=
      List.filter_eq_nil_iff.mpr fun r hr => by simpa using h.no_err r hr
    rw [List.filter_append, hnone]
    rfl
  rw [errorOf, hfilter]
  rfl

theorem outputOf_append_err {rs : List Reply} {out : List Byte} (h : DriverReplies rs out) (e : Rc4Eng) :
    outputOf (rs ++ [e.reply offErr]) = out := by
  rw [← h.outputs, outputOf, List.filter_append, List.map_append]
  exact List.append_nil _

/-- A session from an idle machine runs to its end; its error word is the ERR that its commands leave, and its
output what they leave in DOUT (rules R212, R214). -/
theorem runSteps_session {key msg : List Byte} {polls : List Nat} {s u : State}
    (hb : s.eng.BUSY = false) (hs : s.script = sessionScript key msg polls)
    (hrun : runCommands (sessionCommands key msg) s = .next u) :
    ∃ t rs, runSteps s.script.length s = .next t ∧ t.script = [] ∧ t.replies = s.replies ++ rs ∧
      errorOf rs = u.eng.ERR.setWidth 32 ∧ outputOf rs = doutReads (sessionCommands key msg) s := by
  obtain ⟨p, rs, hrs, hdriver⟩ := runSteps_driver rfl hb hs hrun
  have hend := (runSteps_add hdriver 1).trans (runSteps_reads (offs := [offErr]) (by decide) rfl)
  have hlen : s.script.length = (driverScript (sessionCommands key msg) polls).length + 1 := by
    rw [hs, sessionScript, List.length_append, List.length_singleton]
  rw [← hlen] at hend
  exact ⟨_, _, hend, rfl, List.append_assoc .., errorOf_append_err hrs { u.eng with PEND := p },
    outputOf_append_err hrs { u.eng with PEND := p }⟩

theorem sessionCommands_eq (key msg : List Byte) :
    sessionCommands key msg = (.kclr :: key.map .kload) ++ (.sched :: msg.map .proc) := rfl

theorem doutReads_loadKey (key : List Byte) (s : State) :
    doutReads (.kclr :: key.map .kload) s = [] :=
  doutReads_eq_nil (List.forall_mem_cons.mpr ⟨rfl, List.forall_mem_map.mpr fun _ _ => rfl⟩) s

/-- A session's commands with a key of 1 to 256 bytes set no flag, and leave the source's output in DOUT, byte
by byte (rules R140, R212). -/
theorem runCommands_session (key msg : List Byte) (s : State) (hpos : 1 ≤ key.length)
    (hlen : key.length ≤ 256) :
    ∃ u, runCommands (sessionCommands key msg) s = .next u ∧ u.eng.ERR = s.eng.ERR ∧
      (doutReads (sessionCommands key msg) s).map BitVec.toNat =
        Source.process (Source.begin (Source.schedule (key.map BitVec.toNat)))
          (msg.map BitVec.toNat) := by
  obtain ⟨t, hload, ht, hcount, hK⟩ := kloadsFillTheKeyInOrder key s hlen
  obtain ⟨B, hsched, hmodels⟩ := exec_sched_models t (by omega)
  rw [keyBytes_eq_map hcount hK] at hmodels
  obtain ⟨hprocs, hout⟩ := runCommands_of_procAll (procAll_keyed msg (t.keyedWith_KEYED B))
  have hbegin : (t.keyedWith B).eng.prga.Models
      (Source.begin (Source.schedule (key.map BitVec.toNat))) := ⟨hmodels, rfl, rfl⟩
  have herr : t.eng.ERR = s.eng.ERR := by rw [ht]
  have hrun := runCommands_append hload (.sched :: msg.map .proc)
  rw [runCommands, hsched, andThen_next, hprocs] at hrun
  refine ⟨_, hrun, herr, ?_⟩
  rw [sessionCommands_eq, doutReads_append hload, doutReads_loadKey, doutReads_cons hsched, hout]
  exact hbegin.crypt msg

/-- PROCs with KEYED = 0 set ERR.SEQ and nothing else, however many they are (rule R174). -/
theorem runCommands_procs_unkeyed (b : Byte) (bs : List Byte) (s : State) (h : s.eng.KEYED = false) :
    runCommands ((b :: bs).map .proc) s = .next (s.withEng (s.eng.setErr .seq)) := by
  induction bs generalizing b s with
  | nil => rw [List.map_cons, runCommands, exec_proc_unkeyed b s h]; rfl
  | cons b' bs ih =>
    rw [List.map_cons, runCommands, exec_proc_unkeyed b s h, andThen_next,
      ih b' (s.withEng (s.eng.setErr .seq)) h,
      State.withEng_eng, Rc4Eng.setErr_setErr, State.withEng_withEng]

/-- A session's commands without a key set ERR.KEY, and ERR.SEQ too if there is a byte to process (rules R172,
R174, R212). -/
theorem runCommands_session_nil (msg : List Byte) (s : State) :
    ∃ u, runCommands (sessionCommands [] msg) s = .next u ∧
      u.eng.ERR = s.eng.ERR ||| if msg = [] then 0b00001#5 else 0b00101#5 := by
  have hsched := exec_sched_empty (s.withEng { s.eng with KEYLEN := 0#9, KEYED := false }) rfl
  have hfirst : runCommands [.kclr, .sched] s = .next _ := congrArg (andThen · .next) hsched
  have hrest := runCommands_append hfirst (msg.map .proc)
  cases msg with
  | nil => exact ⟨_, hrest, rfl⟩
  | cons b bs =>
    exact ⟨_, hrest.trans (runCommands_procs_unkeyed b bs _ rfl), BitVec.or_assoc ..⟩

/-! ## The statements of 70_reset_and_hazards.md -/

/-- Settles O51: the second write finds the engine idle again, or busy. -/
theorem overrunAdmitsBothOutcomes : Obligations.OverrunAdmitsBothOutcomes := by
  intro s w w' rest hb
  constructor
  · intro hs
    obtain ⟨e, hidle, he⟩ := engineStep_function (s.eng.latch w)
    obtain ⟨e', -, he'⟩ := engineStep_function (e.latch w')
    refine ⟨_, _, he _ rfl, he' _ rfl, ?_⟩
    calc runSteps 4 s
      _ = runSteps 3 _ := runSteps_of_step (step_latch hb hs) 3
      _ = runSteps 2 _ := runSteps_of_step ((step_engine rfl rfl).trans (he _ rfl)) 2
      _ = runSteps 1 _ := runSteps_of_step (step_latch hidle rfl) 1
      _ = runSteps 0 _ := runSteps_of_step ((step_engine rfl rfl).trans (he' _ rfl)) 0
  · intro hs
    obtain ⟨e, -, he⟩ := engineStep_function ((s.eng.latch w).setErr .ovr)
    have hturn := he { s with script := rest, eng := (s.eng.latch w).setErr .ovr } rfl
    have hovr : ((s.eng.latch w).setErr .ovr).errSet .ovr = true := by simp [errSet_setErr]
    have hkeeps := engineTurn_keeps_errSet ((engineTurn_busy rfl).trans hturn) hovr
    refine ⟨_, hturn, hkeeps, ?_⟩
    calc runSteps 3 s
      _ = runSteps 2 _ := runSteps_of_step (step_latch hb hs) 2
      _ = runSteps 1 _ := runSteps_of_step (step_overrun rfl rfl) 1
      _ = runSteps 0 _ := runSteps_of_step ((step_engine rfl rfl).trans (he _ rfl)) 0

/-- Settles O53: the driver runs the session's commands, which set no flag and give the source's output. -/
theorem sessionsComputeRc4 : Obligations.SessionsComputeRc4 := by
  intro key msg polls s hpos hlen hb herr hs
  obtain ⟨u, hrun, hu, hout⟩ := runCommands_session key msg s hpos hlen
  obtain ⟨t, rs, hsteps, hdone, hreplies, hword, houtput⟩ := runSteps_session hb hs hrun
  have hzero : errorOf rs = 0#32 := by rw [hword, hu, herr]; rfl
  have hkey : key.map BitVec.toNat ≠ [] := by
    rw [Ne, List.map_eq_nil_iff]
    exact List.ne_nil_of_length_pos hpos
  refine ⟨t, rs, outputOf rs, hsteps, hdone, hreplies, if_pos hzero, ?_⟩
  rw [Source.encryptOrDecrypt, if_neg hkey, houtput, hout]

/-- Settles O54: SCHED fails on the empty key, so KEYED stays 0 and each PROC fails too. -/
theorem sessionsWithoutAKeyFail : Obligations.SessionsWithoutAKeyFail := by
  intro msg polls s hb herr hs
  obtain ⟨u, hrun, hu⟩ := runCommands_session_nil msg s
  obtain ⟨t, rs, hsteps, -, hreplies, hword, -⟩ := runSteps_session hb hs hrun
  refine ⟨t, rs, hsteps, hreplies, ?_⟩
  rw [sessionReport, hword, hu, herr]
  split <;> rfl

/-- Settles O34: a reset leaves the engine idle, and an idle engine's turn passes. -/
theorem resetLeavesTheStatedValues : Obligations.ResetLeavesTheStatedValues := by
  intro s S K PEND rest hs
  obtain ⟨hturn, -⟩ :=
    idleEngineChangesNothing { s with script := rest, eng := Rc4Eng.reset S K PEND } rfl
  exact ⟨_, step_cons hs, rfl, rfl, rfl, rfl, rfl, rfl, rfl, rfl, rfl, rfl, rfl, rfl, hturn⟩

/-- Settles O36: each register's content after a reset, and the accepting branch of a CMD write. -/
theorem registersReadZeroAfterReset : Obligations.RegistersReadZeroAfterReset := by
  intro S K PEND
  have hstatus : (Rc4Eng.reset S K PEND).status = 0#32 := by
    simp [Rc4Eng.status, Rc4Eng.errAny, Rc4Eng.reset]
  have hidx : (0#16 ++ (0#8 ++ 0#8) : Word) = 0#32 := by decide
  exact ⟨hstatus, rfl, rfl, rfl, hidx, rfl, fun _ => rfl⟩

end Sys2Proof.Machine
